-- ==== Sys2Proof/Word.lean ====
section
/-! DEFINITION. The word, byte and block types of the hash engine (spec 00_scope.md R6, R7, R20). -/

namespace Sys2Proof

/-- An unsigned 64-bit word: every state word, data word, seed and output word (R6). -/
abbrev Word := BitVec 64

/-- One byte of a message, of the buffer or of a packet (R20). -/
abbrev Byte := BitVec 8

/-- Twelve words: the running hash state, or one decoded data block (R7, R30). -/
abbrev Words12 := Vector Word 12

/-- The four working words `(A, B, C, D)` of the short path, in that order (R33). -/
abbrev Words4 := Vector Word 4

/-- `v[i] <- w` on a named array of words (R21). -/
def put {n : Nat} (v : Vector Word n) (i : Fin n) (w : Word) : Vector Word n :=
  v.set i.1 w i.2

end Sys2Proof
end

