-- ==== Sys2Proof/Config.lean ====
section
/-! DEFINITION. What an implementation fixes (the constant profile KP, LENW, NCTX) and the free values of the model. -/

namespace Sys2Proof

/-- The constant profile `KP` (R12): every constant of the mixing rounds, in one record.
Its values are in Machine/Profile.lean. -/
structure KP where
  /-- `KP.K` (R13): fills words that no seed or message byte has reached. -/
  K : Word
  /-- `KP.MIX_ROT` (R14), used by MIX. -/
  mixRot : Vector Nat 12
  /-- `KP.ENDP_ROT` (R15), used by ENDPARTIAL. -/
  endpRot : Vector Nat 12
  /-- `KP.SMIX_ROT` (R16), used by SHORTMIX. -/
  smixRot : Vector Nat 12
  /-- `KP.SEND_ROT` (R17), used by SHORTEND. -/
  sendRot : Vector Nat 11
  deriving DecidableEq, Repr

/-- A rotation distance that ROT64 takes: 1 to 63 (R113). -/
def rotOk (k : Nat) : Bool := 1 ≤ k && k ≤ 63

/-- The constraint on every profile: each rotation distance is between 1 and 63 (R113, D2). -/
def KP.wf (kp : KP) : Bool :=
  kp.mixRot.toList.all rotOk && kp.endpRot.toList.all rotOk && kp.smixRot.toList.all rotOk && kp.sendRot.toList.all rotOk

namespace Config

/-- `LENW` (R18): the width of `LENGTH` and of every length operand. DESIGN CHOICE of the default, log 15. -/
abbrev lenw : Nat := 64

/-- `NCTX` (R19): contexts per instance; only 1 is defined. State holds that one context. Log 15. -/
abbrev nctx : Nat := 1

/-- DESIGN CHOICE (log 3, log 5), safe: an unspecified word (R44). Draw number, then index.
It has no body, so no proof can learn its value. -/
opaque freeWord : Nat → Nat → Word

/-- DESIGN CHOICE (log 3, log 4, log 5), safe: an unspecified byte of BUF (R34, R44). Draw number, then index. -/
opaque freeByte : Nat → Nat → Byte

/-- DESIGN CHOICE (log 3, log 5), safe: an unspecified REMAINDER (R44). Draw number. -/
opaque freeRemainder : Nat → BitVec 7

end Config

end Sys2Proof
end

