-- ==== Sys2Proof/Machine/Codec.lean ====
section
/-! DEFINITION. The Word Codec and the word arithmetic (spec 40_word_codec.md). -/

namespace Sys2Proof.Machine

/-- The sum of `b[j] * 2^(8j)` (R110, R111): the byte with the lowest index is the least significant. -/
def leNat : List Byte → Nat
  | [] => 0
  | b :: bs => b.toNat + 2 ^ 8 * leNat bs

/-- `zeros(n)` (R20). -/
def zeros (n : Nat) : List Byte := List.replicate n 0

/-- The substring `m[i..j)` (R20). -/
def slice (m : List Byte) (i j : Nat) : List Byte := (m.drop i).take (j - i)

/-- `LE64(b)`, for 8 bytes (R110). -/
def le64 (b : List Byte) : Word := BitVec.ofNat 64 (leNat b)

/-- `LE64P(b)`, for 0 to 8 bytes: zero padding to 8 bytes (R111). -/
def le64P (b : List Byte) : Word := le64 (b ++ zeros (8 - b.length))

/-- Byte `j` of a word, `v[8j+7:8j]` (R20). -/
def byteOf (v : Word) (j : Nat) : Byte := v.extractLsb' (8 * j) 8

/-- `ENC64(v)`: eight bytes, the low byte first (R112). -/
def enc64 (v : Word) : List Byte := (List.range 8).map (byteOf v)

/-- `BLOCK12(b)`, for 96 bytes: twelve words (R116). -/
def block12 (b : List Byte) : Words12 :=
  Vector.ofFn fun i : Fin 12 => le64 (slice b (8 * i.1) (8 * i.1 + 8))

/-- `PADTAG(b, t)`, for 0 to 95 bytes: the bytes, zeros to byte 94, the tag at byte 95 (R117). -/
def padTag (b : List Byte) (t : Byte) : List Byte := b ++ zeros (95 - b.length) ++ [t]

/-- `ROT64(v, k)`, `1 <= k <= 63`: rotation left (R113). -/
def rot64 (v : Word) (k : Nat) : Word := (v <<< k) + (v >>> (64 - k))

/-- `ADD64(x, y)`: addition modulo 2^64 (R114). -/
def add64 (x y : Word) : Word := x + y

/-- `XOR64(x, y)` (R115). -/
def xor64 (x y : Word) : Word := x ^^^ y

/-- `SHL(x, k)`, truncated to 64 bits (R115). -/
def shl (x : Word) (k : Nat) : Word := x <<< k

/-- A length as a word, to be shifted into a tag (R115, R166). -/
def lengthWord (n : Nat) : Word := BitVec.ofNat 64 n

/-- A length as a tag byte (R117). -/
def tagByte (n : Nat) : Byte := BitVec.ofNat 8 n

/-- The low 32 bits of a word (R226). -/
def low32 (v : Word) : BitVec 32 := v.setWidth 32

/-- `zext_64` of a 32-bit value (R21). -/
def zext64 (v : BitVec 32) : Word := v.setWidth 64

end Sys2Proof.Machine
end

