-- ==== Sys2Proof/Machine/Mixer.lean ====
section
/-! DEFINITION. The unit spookyv2_mixer: MIX and ENDPARTIAL (spec 41_mixer.md). -/

namespace Sys2Proof.Machine

/-- The step numbers 0 to 11, in order. Index arithmetic on them is modulo 12. -/
def steps12 : List (Fin 12) := [0, 1, 2, 3, 4, 5, 6, 7, 8, 9, 10, 11]

/-- One step of MIX: five sub-steps, each on the result of the one before (R130). -/
def mixStep (kp : KP) (data s : Words12) (i : Fin 12) : Words12 :=
  let s := put s i (add64 s[i] data[i])
  let s := put s (i + 2) (xor64 s[i + 2] s[i + 10])
  let s := put s (i + 11) (xor64 s[i + 11] s[i])
  let s := put s i (rot64 s[i] kp.mixRot[i])
  put s (i + 11) (add64 s[i + 11] s[i + 1])

/-- MIX (R130). -/
def mix (kp : KP) (data s : Words12) : Words12 := steps12.foldl (mixStep kp data) s

/-- One step of ENDPARTIAL: three sub-steps in order (R133). -/
def endPartialStep (kp : KP) (h : Words12) (i : Fin 12) : Words12 :=
  let h := put h (i + 11) (add64 h[i + 11] h[i + 1])
  let h := put h (i + 2) (xor64 h[i + 2] h[i + 11])
  put h (i + 1) (rot64 h[i + 1] kp.endpRot[i])

/-- ENDPARTIAL (R133). -/
def endPartial (kp : KP) (h : Words12) : Words12 := steps12.foldl (endPartialStep kp) h

end Sys2Proof.Machine
end

