-- ==== Sys2Proof/Machine/Finalize.lean ====
section
/-! DEFINITION. The unit spookyv2_finalize: END (spec 42_finalize.md). -/

namespace Sys2Proof.Machine

/-- END: one full MIX of the data block, three ENDPARTIAL rounds, then words 0 and 1 (R150, R151, R152). -/
def endHash (kp : KP) (data s : Words12) : Word × Word :=
  let t := mix kp data s
  let t := endPartial kp t
  let t := endPartial kp t
  let t := endPartial kp t
  (t[0], t[1])

end Sys2Proof.Machine
end

