-- ==== Sys2Proof/Machine/ShortPath.lean ====
section
/-! DEFINITION. The unit spookyv2_short_path: SHORTMIX, SHORTEND and SHORT (spec 43_short_path.md). The four
working words stand in the order A, B, C, D: indices 0, 1, 2, 3. -/

namespace Sys2Proof.Machine

/-- A step number of a short round as an index of the four words (R160, R162). -/
def mod4 (j : Nat) : Fin 4 := Fin.ofNat 4 j

/-- One step of SHORTMIX: `x = j + 2`, `y = j + 3`, `z = j`, modulo 4 (R160). -/
def shortMixStep (kp : KP) (h : Words4) (j : Fin 12) : Words4 :=
  let x := mod4 (j.1 + 2)
  let y := mod4 (j.1 + 3)
  let z := mod4 j.1
  let h := put h x (rot64 h[x] kp.smixRot[j])
  let h := put h x (add64 h[x] h[y])
  put h z (xor64 h[z] h[x])

/-- SHORTMIX (R160). -/
def shortMix (kp : KP) (h : Words4) : Words4 := steps12.foldl (shortMixStep kp) h

/-- The step numbers 0 to 10 of SHORTEND: eleven, not twelve (R163). -/
def steps11 : List (Fin 11) := [0, 1, 2, 3, 4, 5, 6, 7, 8, 9, 10]

/-- One step of SHORTEND: `x = j + 3`, `y = j + 2`, modulo 4 (R162). -/
def shortEndStep (kp : KP) (h : Words4) (j : Fin 11) : Words4 :=
  let x := mod4 (j.1 + 3)
  let y := mod4 (j.1 + 2)
  let h := put h x (xor64 h[x] h[y])
  let h := put h y (rot64 h[y] kp.sendRot[j])
  put h x (add64 h[x] h[y])

/-- SHORTEND (R162). -/
def shortEnd (kp : KP) (h : Words4) : Words4 := steps11.foldl (shortEndStep kp) h

/-- The common setup: `A <- seed1, B <- seed2, C <- KP.K, D <- KP.K` (R166). -/
def shortSetup (kp : KP) (seed1 seed2 : Word) : Words4 := #v[seed1, seed2, kp.K, kp.K]

/-- `TAILFOLD(t, L)`: the length tag and the tail of 0 to 15 bytes are added into C and D (R166). -/
def tailFold (kp : KP) (w : Words4) (t : List Byte) (L : Nat) : Words4 :=
  let r := t.length
  let w := put w 3 (add64 w[3] (shl (lengthWord L) 56))
  if r = 0 then
    let w := put w 2 (add64 w[2] kp.K)
    put w 3 (add64 w[3] kp.K)
  else
    let w := put w 2 (add64 w[2] (le64P (slice t 0 (min r 8))))
    put w 3 (add64 w[3] (le64P (slice t (min r 8) r)))

/-- The first two working words, the result of the branches below 32 bytes (R172). -/
def firstTwo (w : Words4) : Word × Word := (w[0], w[1])

/-- Branch `L == 0` (R167). -/
def shortEmpty (kp : KP) (seed1 seed2 : Word) : Word × Word :=
  firstTwo (shortEnd kp (tailFold kp (shortSetup kp seed1 seed2) [] 0))

/-- Branch `1 <= L <= 15`: one round (R168). -/
def shortOneRound (kp : KP) (m : List Byte) (seed1 seed2 : Word) : Word × Word :=
  firstTwo (shortEnd kp (tailFold kp (shortSetup kp seed1 seed2) m m.length))

/-- Branch `16 <= L <= 31`: two rounds (R169). -/
def shortTwoRounds (kp : KP) (m : List Byte) (seed1 seed2 : Word) : Word × Word :=
  let w := shortSetup kp seed1 seed2
  let w := put w 2 (add64 w[2] (le64 (slice m 0 8)))
  let w := put w 3 (add64 w[3] (le64 (slice m 8 16)))
  let w := shortMix kp w
  firstTwo (shortEnd kp (tailFold kp w (m.drop 16) m.length))

/-- One full 32-byte sub-block: C and D before SHORTMIX, A and B after it (R170). -/
def subBlock (kp : KP) (b : List Byte) (w : Words4) : Words4 :=
  let w := put w 2 (add64 w[2] (le64 (slice b 0 8)))
  let w := put w 3 (add64 w[3] (le64 (slice b 8 16)))
  let w := shortMix kp w
  let w := put w 0 (add64 w[0] (le64 (slice b 16 24)))
  put w 1 (add64 w[1] (le64 (slice b 24 32)))

/-- The first `n` sub-blocks of a message, in order (R170). -/
def subBlocks (kp : KP) : Nat → List Byte → Words4 → Words4
  | 0, _, w => w
  | n + 1, m, w => subBlocks kp n (m.drop 32) (subBlock kp (m.take 32) w)

/-- The twelve-word state that the working words hand to END (R171). -/
def shortState (kp : KP) (w : Words4) : Words12 :=
  #v[w[0], w[1], w[2], w[3], kp.K, kp.K, kp.K, kp.K, kp.K, kp.K, kp.K, kp.K]

/-- Branch `32 <= L <= 192`: the sub-blocks, then END on the padded rest with tag `L` (R170, R171). -/
def shortBlocks (kp : KP) (m : List Byte) (seed1 seed2 : Word) : Word × Word :=
  let n := m.length / 32
  let w := subBlocks kp n m (shortSetup kp seed1 seed2)
  endHash kp (block12 (padTag (m.drop (32 * n)) (tagByte m.length))) (shortState kp w)

/-- SHORT: four branches, selected by the length alone (R165). -/
def short (kp : KP) (m : List Byte) (seed1 seed2 : Word) : Word × Word :=
  if m.length = 0 then shortEmpty kp seed1 seed2
  else if m.length < 16 then shortOneRound kp m seed1 seed2
  else if m.length < 32 then shortTwoRounds kp m seed1 seed2
  else shortBlocks kp m seed1 seed2

end Sys2Proof.Machine
end

