-- ==== Sys2Proof/Machine/BlockProcessor.lean ====
section
/-! DEFINITION. The pure operations of the unit spookyv2_block_processor (spec 44_block_processor.md), shared by the
commands on CTX and by the long path's private context (spec 45_entry_points.md R221). -/

namespace Sys2Proof.Machine

/-- The template that EXPAND mixes: the seeds and `KP.K`, four times (R191). -/
def expandTemplate (kp : KP) (seed1 seed2 : Word) : Words12 :=
  #v[seed1, seed2, kp.K, seed1, seed2, kp.K, seed1, seed2, kp.K, seed1, seed2, kp.K]

/-- EXPAND: one MIX of an all-zero block into the template; words 0 and 1 are the bare seeds (R191). -/
def expand (kp : KP) (seed1 seed2 : Word) : Words12 :=
  let e := mix kp (Vector.replicate 12 0) (expandTemplate kp seed1 seed2)
  put (put e 0 seed1) 1 seed2

/-- MIX over the first `n` 96-byte blocks of a stream, in stream order (R195). -/
def mixBlocks (kp : KP) : Nat → List Byte → Words12 → Words12
  | 0, _, s => s
  | n + 1, stream, s => mixBlocks kp n (stream.drop 96) (mix kp (block12 (stream.take 96)) s)

/-- What UPDATE does to a state and the unmixed bytes held: every completed block of the old bytes followed by the
new ones is mixed, the leftover is held (R195). -/
def absorb (kp : KP) (s : Words12) (held bytes : List Byte) : Words12 × List Byte :=
  let stream := held ++ bytes
  let n := (held.length + bytes.length) / 96
  (mixBlocks kp n stream s, stream.drop (96 * n))

/-- The tail block: the held bytes padded and tagged with their count (R203). -/
def tailBlock (held : List Byte) : List Byte := padTag held (tagByte held.length)

/-- What FINAL computes from a state and the held bytes (R202). -/
def finish (kp : KP) (s : Words12) (held : List Byte) : Word × Word :=
  endHash kp (block12 (tailBlock held)) s

/-- LONG: EXPAND, one UPDATE with the whole message, FINAL, on a private context (R221). -/
def long (kp : KP) (m : List Byte) (seed1 seed2 : Word) : Word × Word :=
  let x := absorb kp (expand kp seed1 seed2) [] m
  finish kp x.1 x.2

/-- The pair HASH128 returns: SHORT at most 192 bytes, LONG above (R220). -/
def hashPair (kp : KP) (m : List Byte) (seed1 seed2 : Word) : Word × Word :=
  if m.length ≤ 192 then short kp m seed1 seed2 else long kp m seed1 seed2

end Sys2Proof.Machine
end

