-- ==== Sys2Proof/Syntax.lean ====
section
/-! DEFINITION. The instructions: one constructor for each row of spec/opcode_table.json, and the shapes they are encoded in. -/

namespace Sys2Proof

/-- The six host commands and the seven internal micro-operations (R22, R80, R91). A command carries its
operands as its packet carries them: `len` and the payload are two operands (R83), and `Instr.wf` says that
they agree. -/
inductive Instr where
  /-- INIT: seeds the context (R190). -/
  | init (seed1 seed2 : Word)
  /-- UPDATE: appends the payload to the stream (R195). -/
  | update (len : Word) (payload : List Byte)
  /-- FINAL: the hash of the stream so far (R202). -/
  | final
  /-- HASH128: one-shot 128-bit hash (R220). -/
  | hash128 (seed1 seed2 len : Word) (message : List Byte)
  /-- HASH64: first word of the 128-bit hash, one seed (R224). -/
  | hash64 (seed len : Word) (message : List Byte)
  /-- HASH32: low half of the first word, one 32-bit seed (R226). -/
  | hash32 (seed32 : BitVec 32) (len : Word) (message : List Byte)
  /-- MIX: one round over a data block and a state (R130). -/
  | mix (data state : Words12)
  /-- ENDPARTIAL: one finalization round (R133). -/
  | endPartial (state : Words12)
  /-- END: MIX, three ENDPARTIAL, words 0 and 1 (R150). -/
  | endHash (data state : Words12)
  /-- SHORTMIX: the sub-block round of the short path (R160). -/
  | shortMix (h : Words4)
  /-- SHORTEND: the last round of the short path (R162). -/
  | shortEnd (h : Words4)
  /-- SHORT: the direct path for messages of at most 192 bytes (R165). -/
  | short (message : List Byte) (seed1 seed2 : Word)
  /-- EXPAND: twelve state words from two seeds (R191). -/
  | expand (seed1 seed2 : Word)
  deriving DecidableEq, Repr

/-- The six legal opcodes (R85). -/
inductive Opcode where
  | init | update | final | hash128 | hash64 | hash32
  deriving DecidableEq, Repr

/-- The five packet formats (R83), under the spec's names. -/
inductive Format where
  | N | S | D | H2 | H1
  deriving DecidableEq, Repr

/-- A call of one unit by its 4-bit code, with the operands of R91's signature in the order it lists them: words
in `words`, a message in `message`. DESIGN CHOICE (log 7): the spec gives such a call no byte layout. -/
structure UnitCall where
  uop : BitVec 4
  words : List Word
  message : List Byte
  deriving DecidableEq, Repr

/-- Where an instruction's code stands: the bytes of a command packet (R81) or a unit call (R91). -/
inductive Code where
  | packet (bytes : List Byte)
  | call (c : UnitCall)
  deriving DecidableEq, Repr

end Sys2Proof
end

