-- ==== Sys2Proof/Machine/Operands.lean ====
section
/-! DEFINITION. Packet words, opcodes, formats and operand assembly (spec 30_encoding.md R81 to R86, R91). -/

namespace Sys2Proof.Machine

/-- The value of `OPC` for each command (R85). -/
def opcodeByte : Opcode → Byte
  | .init => 0x01
  | .update => 0x02
  | .final => 0x03
  | .hash128 => 0x10
  | .hash64 => 0x11
  | .hash32 => 0x12

/-- The command an `OPC` stands for; the other 250 values are illegal (R85, R89 (a)). -/
def opcodeOf (opc : Byte) : Option Opcode :=
  match opc.toNat with
  | 0x01 => some .init
  | 0x02 => some .update
  | 0x03 => some .final
  | 0x10 => some .hash128
  | 0x11 => some .hash64
  | 0x12 => some .hash32
  | _ => none

/-- The packet format of each command (R85). -/
def opcodeFormat : Opcode → Format
  | .init => .S
  | .update => .D
  | .final => .N
  | .hash128 => .H2
  | .hash64 => .H1
  | .hash32 => .H1

/-- How many words a packet of each format has, the header among them (R83). -/
def formatWords : Format → Nat
  | .N => 1
  | .S => 3
  | .D => 2
  | .H2 => 4
  | .H1 => 3

/-- Which operand word is `len`, in the formats that have a payload (R83, R84). -/
def formatLenWord : Format → Option Nat
  | .N => none
  | .S => none
  | .D => some 1
  | .H2 => some 3
  | .H1 => some 2

/-- How many bytes the words of a command's packet take: where the payload begins (R83, R86). -/
def headBytes (o : Opcode) : Nat := 8 * formatWords (opcodeFormat o)

/-- Word `k` of a packet, from its bytes (R81). -/
def packetWord (bytes : List Byte) (k : Nat) : Word := le64 (slice bytes (8 * k) (8 * k + 8))

/-- `OPC = W0[7:0]` (R82). -/
def headerOpc (w0 : Word) : Byte := w0.setWidth 8

/-- `RSV = W0[63:8]` (R82). -/
def headerRsv (w0 : Word) : BitVec 56 := w0.extractLsb' 8 56

/-- The header word of a well-formed packet: `OPC` with `RSV = 0` (R82). -/
def headerWord (o : Opcode) : Word := (opcodeByte o).setWidth 64

/-- How many payload bytes the packet's `len` operand announces (R83, R84). -/
def announced (o : Opcode) (bytes : List Byte) : Nat :=
  match formatLenWord (opcodeFormat o) with
  | none => 0
  | some k => (packetWord bytes k).toNat

/-- The upper half of HASH32's seed word, which must be 0 (R84, R89 (c)). -/
def seedHigh (w1 : Word) : BitVec 32 := w1.extractLsb' 32 32

/-- The 4-bit code of each unit operation (R91); the commands have none. -/
def uopOf : Instr → Option (BitVec 4)
  | .init _ _ => none
  | .update _ _ => none
  | .final => none
  | .hash128 _ _ _ _ => none
  | .hash64 _ _ _ => none
  | .hash32 _ _ _ => none
  | .mix _ _ => some 0x1
  | .endPartial _ => some 0x2
  | .endHash _ _ => some 0x3
  | .shortMix _ => some 0x4
  | .shortEnd _ => some 0x5
  | .short _ _ _ => some 0x6
  | .expand _ _ => some 0x7

/-- How many operand words a unit call of each code carries, by the signatures of R91. -/
def uopWords (uop : BitVec 4) : Nat :=
  match uop.toNat with
  | 0x1 => 24
  | 0x2 => 12
  | 0x3 => 24
  | 0x4 => 4
  | 0x5 => 4
  | 0x6 => 2
  | 0x7 => 2
  | _ => 0

/-- `n` operand words of a unit call, from word `k` on, as an array. -/
def wordsFrom (ws : List Word) (k n : Nat) : Vector Word n :=
  Vector.ofFn fun i : Fin n => ws.getD (k + i.1) 0

end Sys2Proof.Machine
end

