-- ==== Sys2Proof/Machine/Profile.lean ====
section
/-! DEFINITION. The constant profile P0, the default value of KP (spec 00_scope.md R12 to R17). -/

namespace Sys2Proof.Machine

/-- Profile P0 (R13 to R17). PRESUMED (log 6), unsafe: the spec itself marks every value as general knowledge. -/
def profileP0 : KP where
  K := 0xDEADBEEFDEADBEEF
  mixRot := #v[11, 32, 43, 31, 17, 28, 39, 57, 55, 54, 22, 46]
  endpRot := #v[44, 15, 34, 21, 38, 33, 10, 13, 38, 53, 42, 54]
  smixRot := #v[50, 52, 30, 41, 54, 48, 38, 37, 62, 34, 5, 36]
  sendRot := #v[15, 52, 26, 51, 28, 9, 47, 54, 32, 25, 63]

/-- The engine's read-only constant table (R43), with the bound of R113 on its distances: a profile that breaks
the bound is refused here, by this file not compiling. -/
def constantTable : { kp : KP // kp.wf = true } := ⟨profileP0, by decide⟩

/-- The profile every command runs under (R12, R43). -/
def kp : KP := constantTable.1

end Sys2Proof.Machine
end

