-- ==== Sys2Proof/Machine/State.lean ====
section
/-! DEFINITION. The state of the engine, the reasons a step stops, and the state after reset (spec 10_state.md). -/

namespace Sys2Proof.Machine

/-- `PHASE` (R37): UNINIT or READY. -/
inductive Phase where
  | uninit | ready
  deriving DecidableEq, Repr

/-- The bit that encodes the phase (R37). -/
def Phase.code : Phase → BitVec 1
  | .uninit => 0
  | .ready => 1

/-- What the host does at the command port (R260), oldest first: bytes sent in one transfer, or the reset input
asserted and released (R270). DESIGN CHOICE (log 1, log 9). -/
inductive HostInput where
  | sent (bytes : List Byte)
  | reset
  deriving DecidableEq, Repr

/-- One response packet (R87, R88): the two fields of word 0, and the result words. -/
structure Response where
  /-- `STATUS`, bits [7:0] of word 0. -/
  status : Byte
  /-- `ECHO`, bits [15:8] of word 0. -/
  echo : Byte
  results : List Word
  deriving DecidableEq, Repr

/-- What a unit operation returns, by the signatures of R91. -/
inductive UnitReturn where
  | state (w : Words12)
  | four (w : Words4)
  | pair (h0 h1 : Word)
  deriving DecidableEq, Repr

/-- The machine. The first six fields are the spec's registers (R41), the next two its ports, the last three the model's own. -/
structure State where
  /-- `S[0..11]` (R30). -/
  words : Words12
  /-- `BUF[0..191]` (R34). -/
  buf : Vector Byte 192
  /-- `LENGTH` (R35). -/
  length : BitVec Config.lenw
  /-- `REMAINDER` (R36). -/
  remainder : BitVec 7
  /-- `PHASE` (R37). -/
  phase : Phase
  /-- `FAULT` (R39), sticky; 0 means no fault recorded. -/
  fault : BitVec 8
  /-- What the host has sent and the engine has not taken, oldest first (R81, R260). -/
  commandPort : List HostInput
  /-- The responses sent, oldest first: the observation of a run (R285). -/
  responsePort : List Response
  /-- The model's own (log 7): unit calls waiting to run. -/
  unitCalls : List UnitCall
  /-- The model's own (log 7): what unit calls have returned, oldest first. -/
  unitReturns : List UnitReturn
  /-- The model's own (log 5): the number of the next free value. -/
  freeDraws : Nat
  deriving DecidableEq, Repr

/-- The reasons a step stops with a fault. (The architectural faults of R240 are no stops: they are next states.) -/
inductive Fault where
  /-- Raised by `step` when the last thing on the command port is an incomplete packet, and by a command's meaning when
  its payload is not `len` bytes: the engine is stuck and has no step (R71, R245 (a)). Safe: nothing more happens. -/
  | incompletePacket
  deriving DecidableEq, Repr

/-- The reasons a step is refused by the model. -/
inductive Refusal where
  /-- Raised by `exec` for an instruction without a meaning. Safe. No arm of this model raises it. -/
  | notModelled (mnemonic : String)
  /-- Raised by `step` for a unit call with an unused code (R91: "are unused"). Safe. -/
  | unusedUop (uop : BitVec 4)
  /-- Raised by `step` for a unit call whose operands are not those of its signature (R91). Safe. -/
  | badOperands (uop : BitVec 4)
  /-- Raised by SHORT on more than 192 bytes: outside its domain, no caller passes it (R165, U14). Safe. -/
  | shortMessageTooLong
  deriving DecidableEq, Repr

/-- Unspecified state words, for draw `n` (R44, log 3). -/
def freeWords (n : Nat) : Words12 := Vector.ofFn fun i : Fin 12 => Config.freeWord n i.1

/-- Unspecified buffer bytes, for draw `n` (R44, log 3). -/
def freeBuf (n : Nat) : Vector Byte 192 := Vector.ofFn fun i : Fin 192 => Config.freeByte n i.1

/-- Right after reset (R44, R270, R271): `PHASE = UNINIT`, `FAULT = 0`, the four context registers unspecified
(DESIGN CHOICE, log 3: free values of draw 0), nothing sent on either port. -/
def State.reset : State where
  words := freeWords 0
  buf := freeBuf 0
  length := Config.freeWord 0 12
  remainder := Config.freeRemainder 0
  phase := .uninit
  fault := 0
  commandPort := []
  responsePort := []
  unitCalls := []
  unitReturns := []
  freeDraws := 1

/-- Writes the four registers of CTX. -/
def State.setContext (s : State) (w : Words12) (b : Vector Byte 192) (l : BitVec Config.lenw) (r : BitVec 7) : State :=
  { s with words := w, buf := b, length := l, remainder := r }

/-- Writes `PHASE`. -/
def State.setPhase (s : State) (p : Phase) : State := { s with phase := p }

/-- Writes `FAULT`. -/
def State.setFault (s : State) (c : BitVec 8) : State := { s with fault := c }

/-- What is left on the command port. -/
def State.setPort (s : State) (port : List HostInput) : State := { s with commandPort := port }

/-- Sends one response packet, after those sent before (R72, R87). -/
def State.respond (s : State) (r : Response) : State := { s with responsePort := s.responsePort ++ [r] }

/-- What is left on the unit-call port. -/
def State.setCalls (s : State) (calls : List UnitCall) : State := { s with unitCalls := calls }

/-- A unit operation returns its result. -/
def State.returnUnit (s : State) (r : UnitReturn) : State := { s with unitReturns := s.unitReturns ++ [r] }

/-- Moves on to the next free values. -/
def State.draw (s : State) : State := { s with freeDraws := s.freeDraws + 1 }

end Sys2Proof.Machine
end

