-- ==== Sys2Proof/Machine/Ops.lean ====
section
/-! DEFINITION. The named operations on the state: the context's registers, responses, taking a fault, refusing, reset. -/

namespace Sys2Proof.Machine

/-- `BUF[0 .. REMAINDER)`: the unmixed bytes, in input order (R34). -/
def State.held (s : State) : List Byte := s.buf.toList.take s.remainder.toNat

/-- BUF with the given bytes at its front; the bytes after them are scratch, which UPDATE may leave at any value
(R34, R197 (g)): the free bytes of draw `n` (log 4). -/
def bufHolding (held : List Byte) (n : Nat) : Vector Byte 192 :=
  Vector.ofFn fun i : Fin 192 => held.getD i.1 (Config.freeByte n i.1)

/-- Word 0 of a response: `STATUS` in [7:0], `ECHO` in [15:8], the rest 0 (R87). -/
def Response.word0 (r : Response) : Word := r.status.setWidth 64 ||| (r.echo.setWidth 64 <<< 8)

/-- A response packet's words: word 0, then the result words (R87, R88). -/
def Response.words (r : Response) : List Word := r.word0 :: r.results

/-- A response packet as bytes (R81, R87). -/
def Response.bytes (r : Response) : List Byte := r.words.flatMap enc64

/-- The response of a command that is done without fault: `STATUS = 0`, the opcode echoed, the result words (R87, R88). -/
def finished (o : Opcode) (results : List Word) (s : State) : State := s.respond ⟨0, opcodeByte o, results⟩

/-- `raise F` with code `c` for a header with `OPC = opc`, the whole of trap entry: `FAULT <- c` and the one-word
response; nothing else changes (R246). -/
def raise (c : BitVec 8) (opc : Byte) (s : State) : State := (s.setFault c).respond ⟨c, opc, []⟩

/-- The refusal of a packet while `FAULT = c != 0`: the one-word response `0x80 + c`, and no change (R247). -/
def refuse (opc : Byte) (s : State) : State := s.respond ⟨0x80 + s.fault, opc, []⟩

/-- The answer to a packet that is no command, with fault code `c`: sticky refusal first (R90 (1) to (4)). -/
def reject (c : BitVec 8) (opc : Byte) (s : State) : State :=
  if s.fault ≠ 0 then refuse opc s else raise c opc s

/-- Reset, the only way back from a fault (R249, R270): `PHASE <- UNINIT`, `FAULT <- 0`, the four context registers
become unspecified (free values, log 3), no response packet. -/
def applyReset (s : State) : State :=
  (((s.setContext (freeWords s.freeDraws) (freeBuf s.freeDraws) (Config.freeWord s.freeDraws 12)
    (Config.freeRemainder s.freeDraws)).setPhase .uninit).setFault 0).draw

/-- Code 1, IllegalOpcode (R241). -/
def faultIllegalOpcode : BitVec 8 := 1
/-- Code 2, ReservedField (R242). -/
def faultReservedField : BitVec 8 := 2
/-- Code 3, Uninitialised (R243). -/
def faultUninitialised : BitVec 8 := 3
/-- Code 4, LengthOverflow (R244). -/
def faultLengthOverflow : BitVec 8 := 4

/-- A command, with R90's tests in their order: refused while FAULT is set (1); faulted by the first of tests (5) and
(6) that fails (`blocked`); stuck when its payload is not `len` bytes (R71); else executed. -/
def command (o : Opcode) (blocked : Option (BitVec 8)) (complete : Bool) (effect : State) (s : State) :
    Host.Outcome State Fault Refusal :=
  if s.fault ≠ 0 then .next (refuse (opcodeByte o) s)
  else
    match blocked with
    | some c => .next (raise c (opcodeByte o) s)
    | none => if complete then .next effect else .fault .incompletePacket

end Sys2Proof.Machine
end

