-- ==== Sys2Proof/Machine/Flags.lean ====
section
/-! DEFINITION. The conditions the engine tests. It has no flags, condition codes or predicates (spec 10_state.md R40):
what selects what runs is a length, a phase or an opcode (R228), and these are the tests on phase and length. -/

namespace Sys2Proof.Machine

/-- Test (5) of R90: UPDATE and FINAL fault in UNINIT (R243). -/
def phaseFault (s : State) : Option (BitVec 8) :=
  if s.phase = .uninit then some faultUninitialised else none

/-- Test (6) of R90: `len > 0` and `LENGTH + len >= 2^64` (R244). -/
def overflowFault (len : Word) (s : State) : Option (BitVec 8) :=
  if len ≠ 0 ∧ 2 ^ Config.lenw ≤ s.length.toNat + len.toNat then some faultLengthOverflow else none

/-- Tests (5) and (6) for UPDATE, the first that fails (R90, R248). -/
def updateFault (len : Word) (s : State) : Option (BitVec 8) :=
  match phaseFault s with
  | some c => some c
  | none => overflowFault len s

/-- The state tests of R90 for every instruction: they need the operand words and no payload. -/
def blocked (i : Instr) (s : State) : Option (BitVec 8) :=
  match i with
  | .init _ _ => none
  | .update len _ => updateFault len s
  | .final => phaseFault s
  | .hash128 _ _ _ _ => none
  | .hash64 _ _ _ => none
  | .hash32 _ _ _ => none
  | .mix _ _ => none
  | .endPartial _ => none
  | .endHash _ _ => none
  | .shortMix _ => none
  | .shortEnd _ => none
  | .short _ _ _ => none
  | .expand _ _ => none

/-- Whether the engine answers a command without waiting for its payload: it is refused or it faults (R90). -/
def answersEarly (i : Instr) (s : State) : Bool := s.fault ≠ 0 || (blocked i s).isSome

end Sys2Proof.Machine
end

