-- ==== Sys2Proof/WellFormed.lean ====
section
/-! DEFINITION. Which instructions are well formed. -/

namespace Sys2Proof

/-- A payload of exactly `len` bytes (R71, R83). -/
def payloadOk (len : Word) (payload : List Byte) : Bool := payload.length == len.toNat

/-- Well-formedness: a command's payload has exactly `len` bytes (R71, R83), and a message given to SHORT has at
most 192 bytes (R165). Every other operand may take any value of its type. -/
def Instr.wf : Instr → Bool
  | .init _ _ => true
  | .update len payload => payloadOk len payload
  | .final => true
  | .hash128 _ _ len message => payloadOk len message
  | .hash64 _ len message => payloadOk len message
  | .hash32 _ len message => payloadOk len message
  | .mix _ _ => true
  | .endPartial _ => true
  | .endHash _ _ => true
  | .shortMix _ => true
  | .shortEnd _ => true
  | .short message _ _ => message.length ≤ 192
  | .expand _ _ => true

end Sys2Proof
end

