-- ==== Sys2Proof/Machine/Incremental.lean ====
section
/-! DEFINITION. The incremental commands INIT, UPDATE, FINAL on the context CTX (spec 44_block_processor.md). -/

namespace Sys2Proof.Machine

/-- INIT's effect: CTX seeded by EXPAND, `LENGTH` and `REMAINDER` 0, `PHASE` READY; BUF's bytes become scratch and are
not written (R190). -/
def initEffect (seed1 seed2 : Word) (s : State) : State :=
  finished .init [] ((s.setContext (expand kp seed1 seed2) s.buf 0 0).setPhase .ready)

/-- INIT (R190, R192): no precondition but `FAULT = 0`. -/
def execInit (seed1 seed2 : Word) (s : State) : Host.Outcome State Fault Refusal :=
  command .init none true (initEffect seed1 seed2 s) s

/-- UPDATE's effect on a Ready context for `len > 0` (R195). The last two registers are written as the rule has them:
`LENGTH + len`, and the count of leftover bytes. -/
def absorbInto (payload : List Byte) (s : State) : State :=
  let x := absorb kp s.words s.held payload
  (s.setContext x.1 (bufHolding x.2 s.freeDraws) (s.length + lengthWord payload.length)
    (BitVec.ofNat 7 x.2.length)).draw

/-- UPDATE's effect: `len = 0` leaves every field unchanged (R196), else R195. -/
def updateEffect (payload : List Byte) (s : State) : State :=
  finished .update [] (if payload.length = 0 then s else absorbInto payload s)

/-- UPDATE (R195, R196): fault 3 in UNINIT, fault 4 on overflow of `LENGTH`. -/
def execUpdate (len : Word) (payload : List Byte) (s : State) : Host.Outcome State Fault Refusal :=
  command .update (updateFault len s) (payloadOk len payload) (updateEffect payload s) s

/-- FINAL's effect: the pair of END over the tail block and a copy of `S`; nothing is written (R202, R204). -/
def finalEffect (s : State) : State :=
  let h := finish kp s.words s.held
  finished .final [h.1, h.2] s

/-- FINAL (R202): fault 3 in UNINIT. -/
def execFinal (s : State) : Host.Outcome State Fault Refusal :=
  command .final (phaseFault s) true (finalEffect s) s

end Sys2Proof.Machine
end

