-- ==== Sys2Proof/Machine/MicroOps.lean ====
section
/-! DEFINITION. The seven internal operations as instructions (spec 30_encoding.md R91): each is a pure function of its
operands, and its result goes to `unitReturns`, the model's own field (log 7). No register of the spec changes, no
response is sent, and `FAULT` is not consulted: it refuses packets (R247), and these are none. -/

namespace Sys2Proof.Machine

/-- MIX (R130). -/
def execMix (data state : Words12) (s : State) : Host.Outcome State Fault Refusal :=
  .next (s.returnUnit (.state (mix kp data state)))

/-- ENDPARTIAL (R133). -/
def execEndPartial (state : Words12) (s : State) : Host.Outcome State Fault Refusal :=
  .next (s.returnUnit (.state (endPartial kp state)))

/-- END (R150). -/
def execEndHash (data state : Words12) (s : State) : Host.Outcome State Fault Refusal :=
  let h := endHash kp data state
  .next (s.returnUnit (.pair h.1 h.2))

/-- SHORTMIX (R160). -/
def execShortMix (h : Words4) (s : State) : Host.Outcome State Fault Refusal :=
  .next (s.returnUnit (.four (shortMix kp h)))

/-- SHORTEND (R162). -/
def execShortEnd (h : Words4) (s : State) : Host.Outcome State Fault Refusal :=
  .next (s.returnUnit (.four (shortEnd kp h)))

/-- SHORT (R165), refused outside its domain of 0 to 192 bytes (log 8). -/
def execShort (message : List Byte) (seed1 seed2 : Word) (s : State) : Host.Outcome State Fault Refusal :=
  if message.length ≤ 192 then
    let h := short kp message seed1 seed2
    .next (s.returnUnit (.pair h.1 h.2))
  else .refused .shortMessageTooLong

/-- EXPAND (R191). -/
def execExpand (seed1 seed2 : Word) (s : State) : Host.Outcome State Fault Refusal :=
  .next (s.returnUnit (.state (expand kp seed1 seed2)))

end Sys2Proof.Machine
end

