-- ==== Sys2Proof/Machine/OneShot.lean ====
section
/-! DEFINITION. The one-shot commands HASH128, HASH64, HASH32 (spec 45_entry_points.md). None touches CTX (R222). -/

namespace Sys2Proof.Machine

/-- HASH128 (R220): both words of the pair. -/
def execHash128 (seed1 seed2 len : Word) (message : List Byte) (s : State) : Host.Outcome State Fault Refusal :=
  let h := hashPair kp message seed1 seed2
  command .hash128 none (payloadOk len message) (finished .hash128 [h.1, h.2] s) s

/-- HASH64 (R224): the first word of HASH128 with both seeds set to `seed`. -/
def execHash64 (seed len : Word) (message : List Byte) (s : State) : Host.Outcome State Fault Refusal :=
  let h := hashPair kp message seed seed
  command .hash64 none (payloadOk len message) (finished .hash64 [h.1] s) s

/-- HASH32 (R226): the low 32 bits of the first word, zero-extended; both seeds are the zero-extended `seed32`. -/
def execHash32 (seed32 : BitVec 32) (len : Word) (message : List Byte) (s : State) : Host.Outcome State Fault Refusal :=
  let h := hashPair kp message (zext64 seed32) (zext64 seed32)
  command .hash32 none (payloadOk len message) (finished .hash32 [zext64 (low32 h.1)] s) s

end Sys2Proof.Machine
end

