-- ==== Sys2Proof/Machine/Dispatch.lean ====
section
/-! DEFINITION. One arm per instruction of spec/opcode_table.json. -/

namespace Sys2Proof.Machine

def exec (i : Instr) (s : State) : Host.Outcome State Fault Refusal :=
  match i with
  -- the commands (R85)
  | .init seed1 seed2 => Sys2Proof.Machine.execInit seed1 seed2 s
  | .update len payload => Sys2Proof.Machine.execUpdate len payload s
  | .final => Sys2Proof.Machine.execFinal s
  | .hash128 seed1 seed2 len message => Sys2Proof.Machine.execHash128 seed1 seed2 len message s
  | .hash64 seed len message => Sys2Proof.Machine.execHash64 seed len message s
  | .hash32 seed32 len message => Sys2Proof.Machine.execHash32 seed32 len message s
  -- the internal micro-operations (R91)
  | .mix data state => Sys2Proof.Machine.execMix data state s
  | .endPartial state => Sys2Proof.Machine.execEndPartial state s
  | .endHash data state => Sys2Proof.Machine.execEndHash data state s
  | .shortMix h => Sys2Proof.Machine.execShortMix h s
  | .shortEnd h => Sys2Proof.Machine.execShortEnd h s
  | .short message seed1 seed2 => Sys2Proof.Machine.execShort message seed1 seed2 s
  | .expand seed1 seed2 => Sys2Proof.Machine.execExpand seed1 seed2 s

end Sys2Proof.Machine
end

