-- ==== Sys2Proof/Decode.lean ====
section
/-! DEFINITION. The decoder, total on any bytes and any unit call, and the encoder (spec 30_encoding.md). -/

namespace Sys2Proof

open Machine

/-- What the decoder answers. `rest` is what follows the packet in the bytes it was given (R86). -/
inductive Decoded where
  /-- A whole instruction. -/
  | instr (i : Instr) (rest : List Byte)
  /-- All words of a command are there and fewer payload bytes than `len` (R71): the command with the bytes so far. -/
  | shortPayload (i : Instr)
  /-- A header with a legal opcode, and fewer words than its format has (R83). -/
  | shortWords (opc : Byte)
  /-- Fewer than the eight bytes of a header. -/
  | noHeader
  /-- `OPC` is none of the six: fault 1 (R89 (a)). The packet's end cannot be known (R86). -/
  | illegalOpcode (opc : Byte)
  /-- `RSV != 0`, or HASH32 with `W1[63:32] != 0`: fault 2 (R89 (b), (c)). -/
  | reservedField (opc : Byte) (rest : List Byte)
  /-- A unit call with one of the unused codes 0x0, 0x8 to 0xF (R91). -/
  | unusedUop (uop : BitVec 4)
  /-- A unit call whose operands are not those of its signature (R91, R165). -/
  | badOperands (uop : BitVec 4)
  deriving DecidableEq, Repr

/-- The payload of a command: `len` bytes, or as many as are there (R71, R83). -/
def takePayload (len : Word) (body : List Byte) (mk : List Byte → Instr) : Decoded :=
  if body.length < len.toNat then .shortPayload (mk body)
  else .instr (mk (body.take len.toNat)) (body.drop len.toNat)

/-- The operands of a command, from its packet's words and what follows them (R83, R84, R90 (4)). -/
def decodeOperands (o : Opcode) (bytes body : List Byte) : Decoded :=
  match o with
  | .init => .instr (.init (packetWord bytes 1) (packetWord bytes 2)) body
  | .update => takePayload (packetWord bytes 1) body fun p => .update (packetWord bytes 1) p
  | .final => .instr .final body
  | .hash128 =>
    takePayload (packetWord bytes 3) body fun p =>
      .hash128 (packetWord bytes 1) (packetWord bytes 2) (packetWord bytes 3) p
  | .hash64 =>
    takePayload (packetWord bytes 2) body fun p => .hash64 (packetWord bytes 1) (packetWord bytes 2) p
  | .hash32 =>
    if seedHigh (packetWord bytes 1) ≠ 0 then .reservedField (opcodeByte .hash32) (body.drop (announced .hash32 bytes))
    else takePayload (packetWord bytes 2) body fun p => .hash32 (low32 (packetWord bytes 1)) (packetWord bytes 2) p

/-- The decoder of the command port: one packet from the front of the bytes. The tests stand in the order of R90;
the operand words of a legal opcode are read before test (3) (log 16). -/
def decodePacket (bytes : List Byte) : Decoded :=
  if bytes.length < 8 then .noHeader
  else
    match opcodeOf (headerOpc (packetWord bytes 0)) with
    | none => .illegalOpcode (headerOpc (packetWord bytes 0))
    | some o =>
      if bytes.length < headBytes o then .shortWords (opcodeByte o)
      else if headerRsv (packetWord bytes 0) ≠ 0 then
        .reservedField (opcodeByte o) ((bytes.drop (headBytes o)).drop (announced o bytes))
      else decodeOperands o bytes (bytes.drop (headBytes o))

/-- The operands of a unit call, in the order of R91's signature; their number has been checked. -/
def decodeUnit (c : UnitCall) : Decoded :=
  match c.uop.toNat with
  | 0x1 => .instr (.mix (wordsFrom c.words 0 12) (wordsFrom c.words 12 12)) []
  | 0x2 => .instr (.endPartial (wordsFrom c.words 0 12)) []
  | 0x3 => .instr (.endHash (wordsFrom c.words 0 12) (wordsFrom c.words 12 12)) []
  | 0x4 => .instr (.shortMix (wordsFrom c.words 0 4)) []
  | 0x5 => .instr (.shortEnd (wordsFrom c.words 0 4)) []
  | 0x6 => .instr (.short c.message (c.words.getD 0 0) (c.words.getD 1 0)) []
  | 0x7 => .instr (.expand (c.words.getD 0 0) (c.words.getD 1 0)) []
  | _ => .unusedUop c.uop

/-- A message goes with SHORT alone, and has at most 192 bytes (R91, R165). -/
def messageOk (c : UnitCall) : Bool :=
  if c.uop = 0x6 then c.message.length ≤ 192 else c.message.length = 0

/-- The decoder of the unit-call port (R91). -/
def decodeCall (c : UnitCall) : Decoded :=
  if uopWords c.uop = 0 then .unusedUop c.uop
  else if c.words.length = uopWords c.uop && messageOk c then decodeUnit c
  else .badOperands c.uop

/-- The decoder, on either port. -/
def decode : Code → Decoded
  | .packet bytes => decodePacket bytes
  | .call c => decodeCall c

/-- A packet as bytes: each word by ENC64, then the payload, with no padding and no terminator (R81). -/
def packetBytes (o : Opcode) (operands : List Word) (payload : List Byte) : List Byte :=
  (headerWord o :: operands).flatMap enc64 ++ payload

/-- The encoder: the packet (R81 to R85) or the unit call (R91) of an instruction. -/
def encode : Instr → Code
  | .init seed1 seed2 => .packet (packetBytes .init [seed1, seed2] [])
  | .update len payload => .packet (packetBytes .update [len] payload)
  | .final => .packet (packetBytes .final [] [])
  | .hash128 seed1 seed2 len message => .packet (packetBytes .hash128 [seed1, seed2, len] message)
  | .hash64 seed len message => .packet (packetBytes .hash64 [seed, len] message)
  | .hash32 seed32 len message => .packet (packetBytes .hash32 [zext64 seed32, len] message)
  | .mix data state => .call ⟨0x1, data.toList ++ state.toList, []⟩
  | .endPartial state => .call ⟨0x2, state.toList, []⟩
  | .endHash data state => .call ⟨0x3, data.toList ++ state.toList, []⟩
  | .shortMix h => .call ⟨0x4, h.toList, []⟩
  | .shortEnd h => .call ⟨0x5, h.toList, []⟩
  | .short message seed1 seed2 => .call ⟨0x6, [seed1, seed2], message⟩
  | .expand seed1 seed2 => .call ⟨0x7, [seed1, seed2], []⟩

/-- The `n` low bytes of a number, low byte first (R81). -/
def leBytes (n w : Nat) : List Byte := (List.range n).map fun j => BitVec.ofNat 8 (w / 2 ^ (8 * j))

/-- How many bytes the words of the packet take whose header is the low 64 bits of `w`. -/
def tableBytes (w : Nat) : Nat :=
  match opcodeOf (BitVec.ofNat 8 w) with
  | none => 8
  | some o => headBytes o

/-- The code whose `nbits` bits are `w`, every bit above them 0 (log 14): a row of at most one byte is a UOP code with
operand words of zeros, a longer row is a packet whose words above the header are zeros. -/
def tableCode (nbits w : Nat) : Code :=
  if nbits ≤ 8 then .call ⟨BitVec.ofNat 4 w, List.replicate (uopWords (BitVec.ofNat 4 w)) 0, []⟩
  else .packet (leBytes (max (tableBytes w) (nbits / 8)) (w % 2 ^ nbits))

/-- The instruction the decoder reads from an opcode-table word (log 14). -/
def decodeTableWord (nbits w : Nat) : Option Instr :=
  match decode (tableCode nbits w) with
  | .instr i _ => some i
  | _ => none

end Sys2Proof
end

