-- ==== Sys2Proof/Machine/Fetch.lean ====
section
/-! DEFINITION. What the engine does next: taking packets, resets and unit calls from the ports (spec R71, R72, R86, R90,
R247, R257, R270, R272). Step.lean runs what this file selects. -/

namespace Sys2Proof.Machine

/-- What the engine does next. -/
inductive Action where
  /-- Nothing: the engine is idle and holds its state (R257). -/
  | hold
  /-- A change of state that runs no instruction: a reset, more bytes arriving, the answer to a packet that is no command. -/
  | become (s : State)
  /-- Run an instruction on the state that has taken it from its port. -/
  | run (i : Instr) (s : State)
  /-- No step. -/
  | stuck (f : Fault)
  /-- A unit call that has no meaning. -/
  | noMeaning (r : Refusal)
  deriving DecidableEq, Repr

/-- The port after a packet was taken from a transfer: what is left of the transfer comes first (R86). -/
def remaining (rest : List Byte) (later : List HostInput) : List HostInput :=
  if rest.length = 0 then later else .sent rest :: later

/-- The engine holds an incomplete packet (R71): more bytes may have arrived, which continue it (the packet is a byte
stream, R81); a reset abandons it (R272); else it waits, and there is no step. -/
def await (bytes : List Byte) (later : List HostInput) (s : State) : Action :=
  match later with
  | [] => .stuck .incompletePacket
  | .sent more :: tail => .become (s.setPort (.sent (bytes ++ more) :: tail))
  | .reset :: tail => .become (applyReset (s.setPort tail))

/-- What the engine does with the bytes at the front of the command port (R90). An empty transfer is dropped. -/
def takePacket (bytes : List Byte) (later : List HostInput) (s : State) : Action :=
  match decodePacket bytes with
  | .instr i rest => .run i (s.setPort (remaining rest later))
  | .shortPayload i => if answersEarly i s then .run i (s.setPort later) else await bytes later s
  | .shortWords opc => if s.fault ≠ 0 then .become (refuse opc (s.setPort later)) else await bytes later s
  | .noHeader => if bytes.length = 0 then .become (s.setPort later) else await bytes later s
  | .illegalOpcode opc => .become (reject faultIllegalOpcode opc (s.setPort later))
  | .reservedField opc rest => .become (reject faultReservedField opc (s.setPort (remaining rest later)))
  | .unusedUop u => .noMeaning (.unusedUop u)
  | .badOperands u => .noMeaning (.badOperands u)

/-- What the engine does with a unit call (R91, log 7, log 8). -/
def takeCall (c : UnitCall) (later : List UnitCall) (s : State) : Action :=
  match decodeCall c with
  | .instr i _ => .run i (s.setCalls later)
  | .unusedUop u => .noMeaning (.unusedUop u)
  | _ => .noMeaning (.badOperands c.uop)

/-- The next action: unit calls first (they stand for a command in progress), then the command port, oldest first (R72). -/
def nextAction (s : State) : Action :=
  match s.unitCalls with
  | c :: later => takeCall c later s
  | [] =>
    match s.commandPort with
    | [] => .hold
    | .reset :: later => .become (applyReset (s.setPort later))
    | .sent bytes :: later => takePacket bytes later s

/-- A code at the front of its port, so that it is what `nextAction` takes (log 14). -/
def placeCode (c : Code) (s : State) : State :=
  match c with
  | .packet bytes => (s.setCalls []).setPort (.sent bytes :: s.commandPort)
  | .call u => s.setCalls (u :: s.unitCalls)

end Sys2Proof.Machine
end

