-- ==== Sys2Proof/Machine/Step.lean ====
section
/-! DEFINITION. One step of the engine: one command, atomically (spec 00_scope.md R23, 20_memory.md R68). -/

namespace Sys2Proof.Machine

/-- One step: what `nextAction` selects. -/
def step (s : State) : Host.Outcome State Fault Refusal :=
  match nextAction s with
  | .hold => .next s
  | .become t => .next t
  | .run i t => exec i t
  | .stuck f => .fault f
  | .noMeaning r => .refused r

/-- An opcode-table word placed where `step` takes its next instruction (log 14). -/
def State.withFetchWord (s : State) (nbits w : Nat) : State := placeCode (tableCode nbits w) s

end Sys2Proof.Machine
end

