-- ==== Sys2Proof/Listings.lean ====
section
/-! DEFINITION. The rounds written out for profile P0, line by line as the spec lists them (R131, R134, R161, R163), for
the statements that compare them with the loops. The machine does not run these. -/

namespace Sys2Proof.Machine

/-- MIX written out (R131). -/
def mixListing (data : Words12) (s : Words12) : Words12 :=
  let s0 := s[0]
  let s1 := s[1]
  let s2 := s[2]
  let s3 := s[3]
  let s4 := s[4]
  let s5 := s[5]
  let s6 := s[6]
  let s7 := s[7]
  let s8 := s[8]
  let s9 := s[9]
  let s10 := s[10]
  let s11 := s[11]
  let s0 := add64 s0 data[0]; let s2 := xor64 s2 s10; let s11 := xor64 s11 s0; let s0 := rot64 s0 11; let s11 := add64 s11 s1
  let s1 := add64 s1 data[1]; let s3 := xor64 s3 s11; let s0 := xor64 s0 s1; let s1 := rot64 s1 32; let s0 := add64 s0 s2
  let s2 := add64 s2 data[2]; let s4 := xor64 s4 s0; let s1 := xor64 s1 s2; let s2 := rot64 s2 43; let s1 := add64 s1 s3
  let s3 := add64 s3 data[3]; let s5 := xor64 s5 s1; let s2 := xor64 s2 s3; let s3 := rot64 s3 31; let s2 := add64 s2 s4
  let s4 := add64 s4 data[4]; let s6 := xor64 s6 s2; let s3 := xor64 s3 s4; let s4 := rot64 s4 17; let s3 := add64 s3 s5
  let s5 := add64 s5 data[5]; let s7 := xor64 s7 s3; let s4 := xor64 s4 s5; let s5 := rot64 s5 28; let s4 := add64 s4 s6
  let s6 := add64 s6 data[6]; let s8 := xor64 s8 s4; let s5 := xor64 s5 s6; let s6 := rot64 s6 39; let s5 := add64 s5 s7
  let s7 := add64 s7 data[7]; let s9 := xor64 s9 s5; let s6 := xor64 s6 s7; let s7 := rot64 s7 57; let s6 := add64 s6 s8
  let s8 := add64 s8 data[8]; let s10 := xor64 s10 s6; let s7 := xor64 s7 s8; let s8 := rot64 s8 55; let s7 := add64 s7 s9
  let s9 := add64 s9 data[9]; let s11 := xor64 s11 s7; let s8 := xor64 s8 s9; let s9 := rot64 s9 54; let s8 := add64 s8 s10
  let s10 := add64 s10 data[10]; let s0 := xor64 s0 s8; let s9 := xor64 s9 s10; let s10 := rot64 s10 22; let s9 := add64 s9 s11
  let s11 := add64 s11 data[11]; let s1 := xor64 s1 s9; let s10 := xor64 s10 s11; let s11 := rot64 s11 46; let s10 := add64 s10 s0
  #v[s0, s1, s2, s3, s4, s5, s6, s7, s8, s9, s10, s11]

/-- ENDPARTIAL written out (R134). -/
def endPartialListing (h : Words12) : Words12 :=
  let h0 := h[0]
  let h1 := h[1]
  let h2 := h[2]
  let h3 := h[3]
  let h4 := h[4]
  let h5 := h[5]
  let h6 := h[6]
  let h7 := h[7]
  let h8 := h[8]
  let h9 := h[9]
  let h10 := h[10]
  let h11 := h[11]
  let h11 := add64 h11 h1; let h2 := xor64 h2 h11; let h1 := rot64 h1 44
  let h0 := add64 h0 h2; let h3 := xor64 h3 h0; let h2 := rot64 h2 15
  let h1 := add64 h1 h3; let h4 := xor64 h4 h1; let h3 := rot64 h3 34
  let h2 := add64 h2 h4; let h5 := xor64 h5 h2; let h4 := rot64 h4 21
  let h3 := add64 h3 h5; let h6 := xor64 h6 h3; let h5 := rot64 h5 38
  let h4 := add64 h4 h6; let h7 := xor64 h7 h4; let h6 := rot64 h6 33
  let h5 := add64 h5 h7; let h8 := xor64 h8 h5; let h7 := rot64 h7 10
  let h6 := add64 h6 h8; let h9 := xor64 h9 h6; let h8 := rot64 h8 13
  let h7 := add64 h7 h9; let h10 := xor64 h10 h7; let h9 := rot64 h9 38
  let h8 := add64 h8 h10; let h11 := xor64 h11 h8; let h10 := rot64 h10 53
  let h9 := add64 h9 h11; let h0 := xor64 h0 h9; let h11 := rot64 h11 42
  let h10 := add64 h10 h0; let h1 := xor64 h1 h10; let h0 := rot64 h0 54
  #v[h0, h1, h2, h3, h4, h5, h6, h7, h8, h9, h10, h11]

/-- SHORTMIX written out (R161). -/
def shortMixListing (h : Words4) : Words4 :=
  let h0 := h[0]
  let h1 := h[1]
  let h2 := h[2]
  let h3 := h[3]
  let h2 := rot64 h2 50; let h2 := add64 h2 h3; let h0 := xor64 h0 h2
  let h3 := rot64 h3 52; let h3 := add64 h3 h0; let h1 := xor64 h1 h3
  let h0 := rot64 h0 30; let h0 := add64 h0 h1; let h2 := xor64 h2 h0
  let h1 := rot64 h1 41; let h1 := add64 h1 h2; let h3 := xor64 h3 h1
  let h2 := rot64 h2 54; let h2 := add64 h2 h3; let h0 := xor64 h0 h2
  let h3 := rot64 h3 48; let h3 := add64 h3 h0; let h1 := xor64 h1 h3
  let h0 := rot64 h0 38; let h0 := add64 h0 h1; let h2 := xor64 h2 h0
  let h1 := rot64 h1 37; let h1 := add64 h1 h2; let h3 := xor64 h3 h1
  let h2 := rot64 h2 62; let h2 := add64 h2 h3; let h0 := xor64 h0 h2
  let h3 := rot64 h3 34; let h3 := add64 h3 h0; let h1 := xor64 h1 h3
  let h0 := rot64 h0 5; let h0 := add64 h0 h1; let h2 := xor64 h2 h0
  let h1 := rot64 h1 36; let h1 := add64 h1 h2; let h3 := xor64 h3 h1
  #v[h0, h1, h2, h3]

/-- SHORTEND written out (R163): eleven lines. -/
def shortEndListing (h : Words4) : Words4 :=
  let h0 := h[0]
  let h1 := h[1]
  let h2 := h[2]
  let h3 := h[3]
  let h3 := xor64 h3 h2; let h2 := rot64 h2 15; let h3 := add64 h3 h2
  let h0 := xor64 h0 h3; let h3 := rot64 h3 52; let h0 := add64 h0 h3
  let h1 := xor64 h1 h0; let h0 := rot64 h0 26; let h1 := add64 h1 h0
  let h2 := xor64 h2 h1; let h1 := rot64 h1 51; let h2 := add64 h2 h1
  let h3 := xor64 h3 h2; let h2 := rot64 h2 28; let h3 := add64 h3 h2
  let h0 := xor64 h0 h3; let h3 := rot64 h3 9; let h0 := add64 h0 h3
  let h1 := xor64 h1 h0; let h0 := rot64 h0 47; let h1 := add64 h1 h0
  let h2 := xor64 h2 h1; let h1 := rot64 h1 54; let h2 := add64 h2 h1
  let h3 := xor64 h3 h2; let h2 := rot64 h2 32; let h3 := add64 h3 h2
  let h0 := xor64 h0 h3; let h3 := rot64 h3 25; let h0 := add64 h0 h3
  let h1 := xor64 h1 h0; let h0 := rot64 h0 63; let h1 := add64 h1 h0
  #v[h0, h1, h2, h3]

end Sys2Proof.Machine
end

