-- ==== Sys2Proof/Machine/Assembler.lean ====
section
/-! DEFINITION. The assembler syntax of spec 30_encoding.md R92 and R93, by which programs for the host are written: text
lines to host inputs, responses to their text form. It is no part of the engine. -/

namespace Sys2Proof.Machine

/-- The filler pattern: byte `i` is `(i + 1) mod 256` (R92; 95_test_vectors.md section 2). -/
def fill (n : Nat) : List Byte := (List.range n).map fun i => BitVec.ofNat 8 (i + 1)

/-- One line of a program (R92, R93). -/
inductive Line where
  | command (i : Instr)
  | stream128 (seed1 seed2 : Word) (chunks : List (List Byte))
  | reset
  | comment
  deriving DecidableEq, Repr

/-- UPDATE with the `len` the assembler supplies: the number of bytes (R92). -/
def updateWith (bytes : List Byte) : Instr := .update (lengthWord bytes.length) bytes

/-- The commands a line stands for; STREAM128 is INIT, one UPDATE a chunk, FINAL (R93). -/
def Line.commands : Line → List Instr
  | .command i => [i]
  | .stream128 seed1 seed2 chunks => .init seed1 seed2 :: chunks.map updateWith ++ [.final]
  | .reset => []
  | .comment => []

/-- The transfer that carries one command: its packet (R81). A unit operation has none (R91). -/
def transferOf (i : Instr) : List HostInput :=
  match encode i with
  | .packet bytes => [.sent bytes]
  | .call _ => []

/-- What the host does for a line: one packet a command, or the reset input (R93). -/
def Line.inputs : Line → List HostInput
  | .reset => [.reset]
  | l => l.commands.flatMap transferOf

/-- A parser of a value from the front of a text. -/
abbrev Parser (α : Type) := List Char → Option (α × List Char)

/-- Drops blanks. Where they may stand is the model's choice (log 17). -/
def skipBlanks (cs : List Char) : List Char := cs.dropWhile fun c => c = ' ' || c = '\t'

/-- The value of a decimal digit. -/
def decDigit (c : Char) : Option Nat :=
  if '0' ≤ c ∧ c ≤ '9' then some (c.toNat - '0'.toNat) else none

/-- The value of a hexadecimal digit, in either case. -/
def hexDigit (c : Char) : Option Nat :=
  if 'a' ≤ c ∧ c ≤ 'f' then some (c.toNat - 'a'.toNat + 10)
  else if 'A' ≤ c ∧ c ≤ 'F' then some (c.toNat - 'A'.toNat + 10)
  else decDigit c

/-- One or more digits in a base. -/
def digits (base : Nat) (digit : Char → Option Nat) : Parser Nat := fun cs =>
  let ds := cs.takeWhile fun c => (digit c).isSome
  if ds.length = 0 then none
  else some ((ds.filterMap digit).foldl (fun n d => base * n + d) 0, cs.drop ds.length)

/-- A number: `0x` and hexadecimal digits, or decimal (R92). -/
def number : Parser Nat
  | '0' :: 'x' :: cs => digits 16 hexDigit cs
  | cs => digits 10 decDigit cs

/-- A number that fits `n` bits. -/
def numberOf (n : Nat) : Parser (BitVec n) := fun cs =>
  match number cs with
  | some (v, rest) => if v < 2 ^ n then some (BitVec.ofNat n v, rest) else none
  | none => none

/-- Hexadecimal digits as bytes, two digits a byte, first byte first (R92). -/
def hexBytes : List Char → Option (List Byte)
  | [] => some []
  | [_] => none
  | a :: b :: cs =>
    match hexDigit a, hexDigit b, hexBytes cs with
    | some x, some y, some bs => some (BitVec.ofNat 8 (16 * x + y) :: bs)
    | _, _, _ => none

/-- ASCII characters, one byte each (R92). -/
def asciiBytes (cs : List Char) : Option (List Byte) :=
  if cs.all fun c => c.toNat < 128 then some (cs.map fun c => BitVec.ofNat 8 c.toNat) else none

/-- The text up to a closing quote. -/
def quoted (read : List Char → Option (List Byte)) : Parser (List Byte) := fun cs =>
  let body := cs.takeWhile fun c => c ≠ '"'
  match read body, cs.drop body.length with
  | some bs, '"' :: rest => some (bs, rest)
  | _, _ => none

/-- A `<bytes>` operand: hexadecimal, ASCII, the filler, or empty (R92). -/
def bytesOperand : Parser (List Byte)
  | 'x' :: '"' :: cs => quoted hexBytes cs
  | '"' :: cs => quoted asciiBytes cs
  | 'f' :: 'i' :: 'l' :: 'l' :: '(' :: cs =>
    match number cs with
    | some (n, ')' :: rest) => some (fill n, rest)
    | _ => none
  | 'e' :: 'm' :: 'p' :: 't' :: 'y' :: rest => some ([], rest)
  | _ => none

/-- A separator, with blanks about it. -/
def separator (c : Char) (cs : List Char) : Option (List Char) :=
  match skipBlanks cs with
  | d :: rest => if d = c then some (skipBlanks rest) else none
  | [] => none

/-- A value, a separator, a value. -/
def thenComma {α β : Type} (p : Parser α) (q : Parser β) : Parser (α × β) := fun cs =>
  match p cs with
  | none => none
  | some (a, rest) =>
    match separator ',' rest with
    | none => none
    | some rest =>
      match q rest with
      | none => none
      | some (b, rest) => some ((a, b), rest)

/-- Chunks separated by bars, at most `n` of them (R93). -/
def chunksOperand : Nat → Parser (List (List Byte))
  | 0, _ => none
  | n + 1, cs =>
    match bytesOperand cs with
    | none => none
    | some (b, rest) =>
      match separator '|' rest with
      | none => some ([b], rest)
      | some rest =>
        match chunksOperand n rest with
        | none => none
        | some (bs, rest) => some (b :: bs, rest)

/-- The operands of STREAM128 (R93). DESIGN CHOICE (log 17): R93 allows `k = 0` chunks and gives only the form with a
comma before the chunks; with no chunk the line ends after the second seed, and a comma there makes it unreadable. -/
def streamOperands : Parser ((Word × Word) × List (List Byte)) := fun cs =>
  match thenComma (numberOf 64) (numberOf 64) cs with
  | none => none
  | some (seeds, rest) =>
    match separator ',' rest with
    | none => some ((seeds, []), rest)
    | some rest =>
      match chunksOperand rest.length rest with
      | none => none
      | some (chunks, rest) => some ((seeds, chunks), rest)

/-- A whole operand list: nothing but blanks may follow it. -/
def whole {α : Type} (p : Parser α) (cs : List Char) : Option α :=
  match p (skipBlanks cs) with
  | some (a, rest) => if (skipBlanks rest).length = 0 then some a else none
  | none => none

/-- A line without operands. -/
def bare (l : Line) (cs : List Char) : Option Line := if (skipBlanks cs).length = 0 then some l else none

/-- The line for a mnemonic and the text after it (R92, R93). -/
def lineOf (mnemonic cs : List Char) : Option Line :=
  if mnemonic = ['I', 'N', 'I', 'T'] then
    (whole (thenComma (numberOf 64) (numberOf 64)) cs).map fun a => .command (.init a.1 a.2)
  else if mnemonic = ['U', 'P', 'D', 'A', 'T', 'E'] then
    (whole bytesOperand cs).map fun b => .command (updateWith b)
  else if mnemonic = ['F', 'I', 'N', 'A', 'L'] then bare (.command .final) cs
  else if mnemonic = ['H', 'A', 'S', 'H', '1', '2', '8'] then
    (whole (thenComma (numberOf 64) (thenComma (numberOf 64) bytesOperand)) cs).map fun a =>
      .command (.hash128 a.1 a.2.1 (lengthWord a.2.2.length) a.2.2)
  else if mnemonic = ['H', 'A', 'S', 'H', '6', '4'] then
    (whole (thenComma (numberOf 64) bytesOperand) cs).map fun a => .command (.hash64 a.1 (lengthWord a.2.length) a.2)
  else if mnemonic = ['H', 'A', 'S', 'H', '3', '2'] then
    (whole (thenComma (numberOf 32) bytesOperand) cs).map fun a => .command (.hash32 a.1 (lengthWord a.2.length) a.2)
  else if mnemonic = ['S', 'T', 'R', 'E', 'A', 'M', '1', '2', '8'] then
    (whole streamOperands cs).map fun a => .stream128 a.1.1 a.1.2 a.2
  else if mnemonic = ['R', 'E', 'S', 'E', 'T'] then bare .reset cs
  else none

/-- One line of a program: a command, a pseudo-instruction, a comment or a blank line (R92, R93). -/
def parseLine (cs : List Char) : Option Line :=
  match skipBlanks cs with
  | [] => some .comment
  | ';' :: _ => some .comment
  | cs => lineOf (cs.takeWhile fun c => c ≠ ' ' && c ≠ '\t') (cs.dropWhile fun c => c ≠ ' ' && c ≠ '\t')

/-- A program as host inputs, in order. -/
def assemble : List (List Char) → Option (List HostInput)
  | [] => some []
  | l :: ls =>
    match parseLine l, assemble ls with
    | some a, some inputs => some (a.inputs ++ inputs)
    | _, _ => none

/-- How a response is written (R92): OK with its results, FAULT, or REFUSED with a code. -/
inductive Verdict where
  | ok (results : List Word)
  | fault (code : Byte)
  | refused (code : Byte)
  deriving DecidableEq, Repr

/-- What a response says: `STATUS` 0, a fault code, or 0x80 and the sticky code (R87). -/
def Response.verdict (r : Response) : Verdict :=
  if r.status = 0 then .ok r.results
  else if r.status.msb then .refused (r.status - 0x80)
  else .fault r.status

/-- A number as `0x` and hexadecimal digits (R92). -/
def hexText (n : Nat) : List Char := ['0', 'x'] ++ (Nat.toDigits 16 n).map Char.toUpper

/-- The text form of a response (R92). -/
def Verdict.text : Verdict → List Char
  | .ok results =>
    ['-', '>', ' ', 'O', 'K'] ++ ((results.map fun (r : Word) => ' ' :: hexText r.toNat).intersperse [',']).flatten
  | .fault code => ['-', '>', ' ', 'F', 'A', 'U', 'L', 'T', ' '] ++ Nat.toDigits 10 code.toNat
  | .refused code => ['-', '>', ' ', 'R', 'E', 'F', 'U', 'S', 'E', 'D', ' '] ++ Nat.toDigits 10 code.toNat

end Sys2Proof.Machine
end

