-- ==== Sys2Proof/Safety.lean ====
section
/-! DEFINITION. What counts as a sound state of the engine, and the notions the statements are written in. -/

namespace Sys2Proof.Machine

/-- Items (i) and (ii) of R46: a Ready context counts its held bytes, below one block. -/
abbrev State.contextOk (s : State) : Prop :=
  s.phase = .ready → s.remainder.toNat < 96 ∧ s.remainder.toNat = s.length.toNat % 96

/-- FAULT holds a legal value: no fault, or one of the four codes (R41, R240). -/
abbrev State.faultOk (s : State) : Prop := s.fault.toNat ≤ 4

/-- The invariant of the engine that every step keeps. -/
abbrev State.Inv (s : State) : Prop := s.contextOk ∧ s.faultOk

/-- The registers of CTX and PHASE are the same in both states (R31, R222). -/
abbrev State.SameContext (s t : State) : Prop :=
  t.words = s.words ∧ t.buf = s.buf ∧ t.length = s.length ∧ t.remainder = s.remainder ∧ t.phase = s.phase

/-- The model's own fields are the same in both states. -/
abbrev State.SameModelFields (s t : State) : Prop :=
  t.unitCalls = s.unitCalls ∧ t.unitReturns = s.unitReturns ∧ t.freeDraws = s.freeDraws

/-- No reset waits on the command port. -/
abbrev State.NoReset (s : State) : Prop := HostInput.reset ∉ s.commandPort

/-- Two states that nothing architectural tells apart: they may differ in the whole context while UNINIT (R45), and
in the scratch bytes of BUF always (R34, R42). -/
abbrev State.Alike (s t : State) : Prop :=
  t.phase = s.phase ∧ t.fault = s.fault ∧ t.commandPort = s.commandPort ∧ t.responsePort = s.responsePort ∧
  State.SameModelFields s t ∧
  (s.phase = .ready → t.words = s.words ∧ t.length = s.length ∧ t.remainder = s.remainder ∧ t.held = s.held)

/-- The command an instruction is, none for a unit operation (R22). -/
def commandOf : Instr → Option Opcode
  | .init _ _ => some .init
  | .update _ _ => some .update
  | .final => some .final
  | .hash128 _ _ _ _ => some .hash128
  | .hash64 _ _ _ => some .hash64
  | .hash32 _ _ _ => some .hash32
  | .mix _ _ => none
  | .endPartial _ => none
  | .endHash _ _ => none
  | .shortMix _ => none
  | .shortEnd _ => none
  | .short _ _ _ => none
  | .expand _ _ => none

/-- Instructions one after another, to the first that does not answer a next state (R72). -/
def execAll : List Instr → State → Host.Outcome State Fault Refusal
  | [], s => .next s
  | i :: is, s =>
    match exec i s with
    | .next t => execAll is t
    | .fault f => .fault f
    | .refused r => .refused r

/-- R46 (iii): MIX folded over the complete 96-byte blocks of `m`, block by block from the front. -/
def foldBlocks (kp : KP) (m : List Byte) (s : Words12) : Words12 :=
  (List.range (m.length / 96)).foldl (fun t i => mix kp (block12 (slice m (96 * i) (96 * i + 96))) t) s

/-- R46 (iii): the bytes of `m` after its last complete block. -/
def unmixed (m : List Byte) : List Byte := m.drop (96 * (m.length / 96))

/-- The commands of a stream: INIT, then one UPDATE a chunk (R93, R210). -/
def streamOf (seed1 seed2 : Word) (chunks : List (List Byte)) : List Instr :=
  .init seed1 seed2 :: chunks.map updateWith

/-- The loop of R198: while 96 or more payload bytes are left, mix the next 96. The first argument bounds the rounds. -/
def drainBlocks (kp : KP) : Nat → List Byte → Words12 → Words12 × List Byte
  | 0, bytes, s => (s, bytes)
  | n + 1, bytes, s =>
    if 96 ≤ bytes.length then drainBlocks kp n (bytes.drop 96) (mix kp (block12 (bytes.take 96)) s)
    else (s, bytes)

/-- R198, the incremental form of UPDATE's rule: top up a block with the held bytes first, then mix whole blocks of the
payload, then hold what is left. -/
def absorbIncrementally (kp : KP) (s : Words12) (held bytes : List Byte) : Words12 × List Byte :=
  if 0 < held.length ∧ 96 ≤ held.length + bytes.length then
    drainBlocks kp bytes.length (bytes.drop (96 - held.length))
      (mix kp (block12 (held ++ bytes.take (96 - held.length))) s)
  else if held.length = 0 then drainBlocks kp bytes.length bytes s
  else (s, held ++ bytes)

end Sys2Proof.Machine
end

