-- ==== Sys2Proof/Certificates/Slice0/Obligations.lean ====
section
/-! DEFINITION. The statements for the provers. Each docstring names the rule of spec/ that the statement formalises. -/

open Sys2Proof Sys2Proof.Machine

/-! ### Word Codec and arithmetic -/

/-- R113: the sum the rule gives, and where every bit goes; the profile's distances keep the rule's bound. That the
rotation is to the left the spec marks as general knowledge (log 6). -/
def Obligations.RotationMovesEveryBitLeft : Prop :=
  (∀ (v : Word) (k : Nat), 1 ≤ k → k ≤ 63 →
    (rot64 v k).toNat = v.toNat * 2 ^ k % 2 ^ 64 + v.toNat / 2 ^ (64 - k) ∧
    ∀ i, i < 64 → (rot64 v k).getLsbD ((i + k) % 64) = v.getLsbD i) ∧
  kp.wf = true

/-- R114, R115: addition wraps at 2^64; exclusive or goes bit by bit; the left shift is truncated, and a length tag
shifted into the top byte loses nothing. -/
def Obligations.WordArithmeticWrapsAndTruncates : Prop :=
  (∀ x y : Word, (add64 x y).toNat = (x.toNat + y.toNat) % 2 ^ 64) ∧
  (∀ (x y : Word) (i : Nat), (xor64 x y).getLsbD i = (x.getLsbD i ^^ y.getLsbD i)) ∧
  (∀ (x : Word) (k : Nat), k ≤ 63 → (shl x k).toNat = x.toNat * 2 ^ k % 2 ^ 64) ∧
  (∀ n, n ≤ 192 → (shl (lengthWord n) 56).toNat = n * 2 ^ 56)

/-- R110: the little-endian sum of eight bytes, and distinct strings give distinct words. -/
def Obligations.DecodedWordIsTheLittleEndianSum : Prop :=
  (∀ b0 b1 b2 b3 b4 b5 b6 b7 : Byte,
    (le64 [b0, b1, b2, b3, b4, b5, b6, b7]).toNat =
      b0.toNat + b1.toNat * 2 ^ 8 + b2.toNat * 2 ^ 16 + b3.toNat * 2 ^ 24 + b4.toNat * 2 ^ 32 + b5.toNat * 2 ^ 40 +
        b6.toNat * 2 ^ 48 + b7.toNat * 2 ^ 56) ∧
  (∀ b c : List Byte, b.length = 8 → c.length = 8 → le64 b = le64 c → b = c)

/-- R111: LE64 of the zero-padded bytes, which is the sum of `b[j] * 2^(8j)` for the bytes there are. -/
def Obligations.ShortDecodePadsWithZeros : Prop :=
  ∀ b : List Byte, b.length ≤ 8 →
    le64P b = le64 (b ++ List.replicate (8 - b.length) 0) ∧
    (le64P b).toNat = ((List.range b.length).map fun j => (b.getD j 0).toNat * 2 ^ (8 * j)).sum ∧
    (b = [] → le64P b = 0) ∧ (b.length = 8 → le64P b = le64 b)

/-- R112: byte `j` of the encoding is `v[8j+7:8j]`, and encode and decode are inverse. -/
def Obligations.EncodeAndDecodeAreInverse : Prop :=
  (∀ v : Word, (enc64 v).length = 8 ∧ (∀ j, j < 8 → ((enc64 v).getD j 0).toNat = v.toNat / 2 ^ (8 * j) % 2 ^ 8) ∧
    le64 (enc64 v) = v) ∧
  (∀ b : List Byte, b.length = 8 → enc64 (le64 b) = b)

/-- R117: the padded block's bytes, and the tag as the top byte of word 11. -/
def Obligations.TaggedBlockKeepsDataAndTag : Prop :=
  ∀ (b : List Byte) (t : Byte), b.length ≤ 95 →
    (padTag b t).length = 96 ∧
    (∀ i, i < b.length → (padTag b t).getD i 0 = b.getD i 0) ∧
    (∀ i, b.length ≤ i → i ≤ 94 → (padTag b t).getD i 0 = 0) ∧
    (padTag b t).getD 95 0 = t ∧
    ((block12 (padTag b t))[11]).toNat / 2 ^ 56 = t.toNat ∧
    (∀ i : Fin 12, (block12 (padTag b t))[i] = le64 (((padTag b t).drop (8 * i.1)).take 8))

/-! ### The rounds -/

/-- R130, R131: MIX as an instruction returns the listing's words and changes nothing else. The field the result goes
to is the model's own (log 7); the distances are profile P0's (log 6). -/
def Obligations.MixReturnsTheListedRound : Prop :=
  ∀ (data state : Words12) (s : State),
    exec (.mix data state) s = .next { s with unitReturns := s.unitReturns ++ [.state (mixListing data state)] }

/-- R133, R134: ENDPARTIAL as an instruction returns the listing's words and changes nothing else. The field the
result goes to is the model's own (log 7); the distances are profile P0's (log 6). -/
def Obligations.EndPartialReturnsTheListedRound : Prop :=
  ∀ (state : Words12) (s : State),
    exec (.endPartial state) s = .next { s with unitReturns := s.unitReturns ++ [.state (endPartialListing state)] }

/-- R150, R152: END is one full MIX of the data block, exactly three ENDPARTIAL rounds, and words 0 and 1. The field
the result goes to is the model's own (log 7); the distances are profile P0's (log 6). -/
def Obligations.EndIsOneMixAndThreeRounds : Prop :=
  ∀ (data state : Words12) (s : State),
    exec (.endHash data state) s =
      .next { s with unitReturns := s.unitReturns ++
        [.pair (endPartialListing (endPartialListing (endPartialListing (mixListing data state))))[0]
          (endPartialListing (endPartialListing (endPartialListing (mixListing data state))))[1]] }

/-- R160 to R163: SHORTMIX and SHORTEND as instructions return the listings' words and change nothing else. The field
the results go to is the model's own (log 7); the distances are profile P0's (log 6). -/
def Obligations.ShortRoundsReturnTheListedRounds : Prop :=
  ∀ (h : Words4) (s : State),
    exec (.shortMix h) s = .next { s with unitReturns := s.unitReturns ++ [.four (shortMixListing h)] } ∧
    exec (.shortEnd h) s = .next { s with unitReturns := s.unitReturns ++ [.four (shortEndListing h)] }

/-- R132 (d), which the spec derives from R130: under any profile whose distances keep the bound, MIX of a fixed data
block is a bijection on states. -/
def Obligations.MixIsABijection : Prop :=
  ∀ (c : KP) (data : Words12), c.wf = true → Function.Bijective (mix c data)

/-- R135 (c), which the spec derives from R133: ENDPARTIAL is a bijection on states. -/
def Obligations.EndPartialIsABijection : Prop :=
  ∀ c : KP, c.wf = true → Function.Bijective (endPartial c)

/-- R164, which the spec derives from R160 and R162: both short rounds are bijections on four-word values. -/
def Obligations.ShortRoundsAreBijections : Prop :=
  ∀ c : KP, c.wf = true → Function.Bijective (shortMix c) ∧ Function.Bijective (shortEnd c)

/-- R132 (c), R135 (b), R154 (c), R164: zeros stay zeros, under every profile. The spec derives each from the
pseudocode of the operation. -/
def Obligations.RoundsKeepZero : Prop :=
  ∀ c : KP, mix c (Vector.replicate 12 0) (Vector.replicate 12 0) = Vector.replicate 12 0 ∧
    endPartial c (Vector.replicate 12 0) = Vector.replicate 12 0 ∧
    endHash c (Vector.replicate 12 0) (Vector.replicate 12 0) = (0, 0) ∧
    shortMix c (Vector.replicate 4 0) = Vector.replicate 4 0 ∧ shortEnd c (Vector.replicate 4 0) = Vector.replicate 4 0

/-! ### The short path -/

/-- (For the statements about SHORT and EXPAND as instructions: the field the result goes to is the model's own, log
7.) R167: the empty message gives the first two words of SHORTEND over the seeds and twice `K`. -/
def Obligations.ShortOfNothingDependsOnSeedsOnly : Prop :=
  ∀ (seed1 seed2 : Word) (s : State),
    exec (.short [] seed1 seed2) s =
      .next { s with unitReturns := s.unitReturns ++
        [.pair (shortEnd kp #v[seed1, seed2, 0xBD5B7DDFBD5B7DDE, 0xBD5B7DDFBD5B7DDE])[0]
          (shortEnd kp #v[seed1, seed2, 0xBD5B7DDFBD5B7DDE, 0xBD5B7DDFBD5B7DDE])[1]] }

/-- R168: 1 to 15 bytes take one SHORTEND round: the first eight bytes in C, the rest and the length tag in D. -/
def Obligations.ShortBelowSixteenRunsOneRound : Prop :=
  ∀ (m : List Byte) (seed1 seed2 : Word) (s : State), 1 ≤ m.length → m.length ≤ 15 →
    ∃ w : Words4,
      w = shortEnd kp #v[seed1, seed2, kp.K + le64P (m.take 8),
        kp.K + BitVec.ofNat 64 (m.length * 2 ^ 56) + le64P (m.drop 8)] ∧
      exec (.short m seed1 seed2) s = .next { s with unitReturns := s.unitReturns ++ [.pair w[0] w[1]] }

/-- R169: 16 to 31 bytes take SHORTMIX over the first sixteen, then SHORTEND over the tail; an empty tail adds `K`. -/
def Obligations.ShortBelowThirtyTwoRunsTwoRounds : Prop :=
  ∀ (m : List Byte) (seed1 seed2 : Word) (s : State), 16 ≤ m.length → m.length ≤ 31 →
    ∃ v w : Words4,
      v = shortMix kp #v[seed1, seed2, kp.K + le64 (m.take 8), kp.K + le64 ((m.drop 8).take 8)] ∧
      w = shortEnd kp #v[v[0], v[1],
        v[2] + (if m.length = 16 then kp.K else le64P ((m.drop 16).take 8)),
        v[3] + BitVec.ofNat 64 (m.length * 2 ^ 56) + (if m.length = 16 then kp.K else le64P (m.drop 24))] ∧
      exec (.short m seed1 seed2) s = .next { s with unitReturns := s.unitReturns ++ [.pair w[0] w[1]] }

/-- R170, R171: 32 to 192 bytes run one SHORTMIX a 32-byte sub-block, then END over the rest: its words in data[0..3],
zeros in data[4..10], the length tag alone in data[11]. -/
def Obligations.ShortFromThirtyTwoEndsInEnd : Prop :=
  ∀ (m : List Byte) (seed1 seed2 : Word) (s : State), 32 ≤ m.length → m.length ≤ 192 →
    ∃ (w : Words4) (data : Words12),
      w = (List.range (m.length / 32)).foldl
        (fun (v : Words4) i =>
          let o := 32 * i
          let u := shortMix kp #v[v[0], v[1], v[2] + le64 (slice m o (o + 8)), v[3] + le64 (slice m (o + 8) (o + 16))]
          #v[u[0] + le64 (slice m (o + 16) (o + 24)), u[1] + le64 (slice m (o + 24) (o + 32)), u[2], u[3]])
        #v[seed1, seed2, kp.K, kp.K] ∧
      (∀ j : Fin 12, j.1 < 4 → data[j] = le64P (((m.drop (32 * (m.length / 32))).drop (8 * j.1)).take 8)) ∧
      (∀ j : Fin 12, 4 ≤ j.1 → j.1 ≤ 10 → data[j] = 0) ∧
      data[11] = BitVec.ofNat 64 (m.length * 2 ^ 56) ∧
      exec (.short m seed1 seed2) s =
        .next { s with unitReturns := s.unitReturns ++
          [.pair (endHash kp data #v[w[0], w[1], w[2], w[3], kp.K, kp.K, kp.K, kp.K, kp.K, kp.K, kp.K, kp.K]).1
            (endHash kp data #v[w[0], w[1], w[2], w[3], kp.K, kp.K, kp.K, kp.K, kp.K, kp.K, kp.K, kp.K]).2] }

/-- R165, U14: above 192 bytes SHORT has no meaning (the model's stop, log 8), and no command asks it to. -/
def Obligations.ShortAboveItsDomainIsRefused : Prop :=
  ∀ (m : List Byte) (seed1 seed2 : Word) (s : State), 192 < m.length →
    exec (.short m seed1 seed2) s = .refused .shortMessageTooLong

/-- R173, C1: for some message within 192 bytes the one-shot pair and the incremental pair differ. -/
def Obligations.ShortPathIsNotTheLongPath : Prop :=
  ∃ m : List Byte, m.length ≤ 192 ∧ hashPair kp m 0 0 ≠ long kp m 0 0

/-! ### INIT, UPDATE, FINAL -/

/-- R191: EXPAND keeps the seeds bare in words 0 and 1, and takes words 2 to 11 from one MIX of an all-zero block. -/
def Obligations.ExpandKeepsSeedsAndMixesOnce : Prop :=
  ∀ (seed1 seed2 : Word) (s : State), ∃ w : Words12,
    exec (.expand seed1 seed2) s = .next { s with unitReturns := s.unitReturns ++ [.state w] } ∧
    w[0] = seed1 ∧ w[1] = seed2 ∧
    ∀ i : Fin 12, 2 ≤ i.1 →
      w[i] = (mix kp #v[0, 0, 0, 0, 0, 0, 0, 0, 0, 0, 0, 0]
        #v[seed1, seed2, kp.K, seed1, seed2, kp.K, seed1, seed2, kp.K, seed1, seed2, kp.K])[i]

/-- R190: INIT seeds the twelve words, zeroes LENGTH and REMAINDER, makes the context Ready, in either phase; nothing
else changes but the response. That BUF, all of it scratch from then on, keeps its bytes is the model's choice (log
4). -/
def Obligations.InitSeedsAReadyContext : Prop :=
  ∀ (seed1 seed2 : Word) (s : State), s.fault = 0 →
    exec (.init seed1 seed2) s =
      .next { s with
        words := expand kp seed1 seed2, length := 0, remainder := 0, phase := .ready,
        responsePort := s.responsePort ++ [⟨0, 0x01, []⟩] } ∧
    (expand kp seed1 seed2)[0] = seed1 ∧ (expand kp seed1 seed2)[1] = seed2

/-- R195: UPDATE of a Ready context mixes every completed block of the held bytes followed by the payload, in order,
holds the leftover, and counts; its frame is the rest of the state. -/
def Obligations.UpdateMixesEveryCompletedBlock : Prop :=
  ∀ (len : Word) (payload : List Byte) (s : State),
    s.fault = 0 → s.phase = .ready → payload.length = len.toNat → 0 < len.toNat →
    s.length.toNat + len.toNat < 2 ^ 64 →
    ∃ t : State, exec (.update len payload) s = .next t ∧
      t.words = foldBlocks kp (s.held ++ payload) s.words ∧
      t.held = unmixed (s.held ++ payload) ∧
      t.remainder.toNat = (s.remainder.toNat + len.toNat) % 96 ∧
      t.length.toNat = s.length.toNat + len.toNat ∧
      t.phase = .ready ∧ t.fault = 0 ∧
      t.responsePort = s.responsePort ++ [⟨0, 0x02, []⟩] ∧
      t.commandPort = s.commandPort ∧ t.unitCalls = s.unitCalls ∧ t.unitReturns = s.unitReturns

/-- R196: UPDATE with `len = 0` changes no field of a Ready context, all 192 bytes of BUF among them; in UNINIT it
faults like any other UPDATE. -/
def Obligations.UpdateOfNothingChangesNothing : Prop :=
  ∀ s : State, s.fault = 0 →
    (s.phase = .ready →
      exec (.update 0 []) s = .next { s with responsePort := s.responsePort ++ [⟨0, 0x02, []⟩] }) ∧
    (s.phase = .uninit →
      exec (.update 0 []) s = .next { s with fault := 3, responsePort := s.responsePort ++ [⟨3, 0x02, []⟩] })

/-- R198, which the spec derives from R195: the incremental form gives the same state words, held bytes, REMAINDER and
LENGTH as R195's rule; what it holds at its end is always less than a block. -/
def Obligations.IncrementalFormOfUpdateAgrees : Prop :=
  ∀ (len : Word) (payload : List Byte) (s : State),
    s.fault = 0 → s.phase = .ready → s.remainder.toNat < 96 → payload.length = len.toNat → 0 < len.toNat →
    s.length.toNat + len.toNat < 2 ^ 64 →
    ∃ t : State, exec (.update len payload) s = .next t ∧
      t.words = (absorbIncrementally kp s.words s.held payload).1 ∧
      t.held = (absorbIncrementally kp s.words s.held payload).2 ∧
      t.remainder.toNat = (absorbIncrementally kp s.words s.held payload).2.length ∧
      (absorbIncrementally kp s.words s.held payload).2.length < 96 ∧
      t.length.toNat = s.length.toNat + len.toNat

/-- R202, R203, R204: FINAL of a Ready context answers END over the zero-padded held bytes, tagged in byte 95 with
REMAINDER, and a copy of S; no register changes. -/
def Obligations.FinalHashesTheTailAndChangesNothing : Prop :=
  ∀ s : State, s.fault = 0 → s.phase = .ready → s.remainder.toNat < 96 →
    ∃ h0 h1 : Word,
      (h0, h1) = endHash kp (block12 (s.held ++ List.replicate (95 - s.remainder.toNat) 0 ++
        [BitVec.ofNat 8 s.remainder.toNat])) s.words ∧
      exec .final s = .next { s with responsePort := s.responsePort ++ [⟨0, 0x03, [h0, h1]⟩] }

/-- R205, its last sentence, which the spec derives from R204: deleting a FINAL changes no later response and no later
state, whatever commands follow. -/
def Obligations.DeletingFinalChangesNothingLater : Prop :=
  ∀ (is : List Instr) (s t u : State), s.fault = 0 → s.phase = .ready →
    exec .final s = .next t → execAll is s = .next u →
    ∃ (v : State) (rs : List Response), execAll is t = .next v ∧
      u.responsePort = s.responsePort ++ rs ∧ v.responsePort = t.responsePort ++ rs ∧
      { v with responsePort := u.responsePort } = u

/-- R46 (iii), which the spec derives from R190, R195 and R244: after INIT and any chunks, the context is the function
of their concatenation that R46 (iii) gives. -/
def Obligations.StreamIsAFunctionOfItsConcatenation : Prop :=
  ∀ (seed1 seed2 : Word) (chunks : List (List Byte)) (s : State),
    s.fault = 0 → chunks.flatten.length < 2 ^ 64 →
    ∃ t : State, execAll (streamOf seed1 seed2 chunks) s = .next t ∧
      t.phase = .ready ∧ t.fault = 0 ∧
      t.length.toNat = chunks.flatten.length ∧
      t.remainder.toNat = chunks.flatten.length % 96 ∧
      t.held = unmixed chunks.flatten ∧
      t.words = foldBlocks kp chunks.flatten (expand kp seed1 seed2) ∧
      t.responsePort = s.responsePort ++ ⟨0, 0x01, []⟩ :: chunks.map fun _ => ⟨0, 0x02, []⟩

/-- R210, which the spec derives from R195 and R46 (iii): any two ways of cutting a message into chunks, empty ones
among them, leave the same S, held bytes, REMAINDER and LENGTH, and FINAL then returns the same pair. -/
def Obligations.ChunkingNeverChangesTheHash : Prop :=
  ∀ (seed1 seed2 : Word) (chunks chunks' : List (List Byte)) (s s' : State),
    s.fault = 0 → s'.fault = 0 → chunks.flatten = chunks'.flatten → chunks.flatten.length < 2 ^ 64 →
    ∃ (t t' : State) (h0 h1 : Word),
      execAll (streamOf seed1 seed2 chunks) s = .next t ∧ execAll (streamOf seed1 seed2 chunks') s' = .next t' ∧
      t'.words = t.words ∧ t'.held = t.held ∧ t'.remainder = t.remainder ∧ t'.length = t.length ∧
      exec .final t = .next { t with responsePort := t.responsePort ++ [⟨0, 0x03, [h0, h1]⟩] } ∧
      exec .final t' = .next { t' with responsePort := t'.responsePort ++ [⟨0, 0x03, [h0, h1]⟩] }

/-- R211, which the spec derives from R210 and R221: from 193 bytes on, HASH128 of a message returns the pair that
FINAL returns after INIT and any chunking of it. -/
def Obligations.LongOneShotEqualsEveryChunking : Prop :=
  ∀ (seed1 seed2 len : Word) (chunks : List (List Byte)) (s : State),
    s.fault = 0 → 193 ≤ chunks.flatten.length → chunks.flatten.length = len.toNat →
    ∃ (h0 h1 : Word) (t : State),
      exec (.hash128 seed1 seed2 len chunks.flatten) s =
        .next { s with responsePort := s.responsePort ++ [⟨0, 0x10, [h0, h1]⟩] } ∧
      execAll (streamOf seed1 seed2 chunks ++ [.final]) s = .next t ∧
      t.responsePort.getLast? = some ⟨0, 0x03, [h0, h1]⟩

/-! ### The one-shot commands -/

/-- R220, R222: HASH128 returns SHORT's pair up to 192 bytes and LONG's above, in either phase; it changes no
register. -/
def Obligations.HashPairDispatchesAtOneHundredNinetyTwo : Prop :=
  ∀ (seed1 seed2 len : Word) (m : List Byte) (s : State), s.fault = 0 → m.length = len.toNat →
    ∃ h : Word × Word,
      (len.toNat ≤ 192 → h = short kp m seed1 seed2) ∧
      (193 ≤ len.toNat →
        h = endHash kp (block12 (padTag (unmixed m) (tagByte (len.toNat % 96))))
          (foldBlocks kp m (expand kp seed1 seed2))) ∧
      exec (.hash128 seed1 seed2 len m) s =
        .next { s with responsePort := s.responsePort ++ [⟨0, 0x10, [h.1, h.2]⟩] }

/-- R224: HASH64 returns the first word of HASH128 with both seeds set to its seed, for every length. -/
def Obligations.HashSixtyFourIsTheFirstWord : Prop :=
  ∀ (seed len : Word) (m : List Byte) (s : State), s.fault = 0 → m.length = len.toNat →
    ∃ h0 h1 : Word,
      exec (.hash128 seed seed len m) s =
        .next { s with responsePort := s.responsePort ++ [⟨0, 0x10, [h0, h1]⟩] } ∧
      exec (.hash64 seed len m) s = .next { s with responsePort := s.responsePort ++ [⟨0, 0x11, [h0]⟩] }

/-- R226: HASH32 returns the low 32 bits, zero-extended, of the first word of HASH128 with both seeds zero-extended.
-/
def Obligations.HashThirtyTwoIsTheLowHalf : Prop :=
  ∀ (seed32 : BitVec 32) (len : Word) (m : List Byte) (s : State), s.fault = 0 → m.length = len.toNat →
    ∃ h0 h1 r : Word,
      exec (.hash128 (seed32.setWidth 64) (seed32.setWidth 64) len m) s =
        .next { s with responsePort := s.responsePort ++ [⟨0, 0x10, [h0, h1]⟩] } ∧
      r.toNat = h0.toNat % 2 ^ 32 ∧
      exec (.hash32 seed32 len m) s = .next { s with responsePort := s.responsePort ++ [⟨0, 0x12, [r]⟩] }

/-! ### Faults, refusal, reset -/

/-- R243: UPDATE, of any length, and FINAL in UNINIT raise fault 3 and change nothing else. -/
def Obligations.UninitialisedContextFaults : Prop :=
  ∀ (len : Word) (payload : List Byte) (s : State), s.fault = 0 → s.phase = .uninit →
    exec (.update len payload) s = .next { s with fault := 3, responsePort := s.responsePort ++ [⟨3, 0x02, []⟩] } ∧
    exec .final s = .next { s with fault := 3, responsePort := s.responsePort ++ [⟨3, 0x03, []⟩] }

/-- R244: UPDATE with `len > 0` that would carry LENGTH to 2^64 or beyond raises fault 4 and changes nothing else. -/
def Obligations.LengthOverflowFaults : Prop :=
  ∀ (len : Word) (payload : List Byte) (s : State), s.fault = 0 → s.phase = .ready →
    0 < len.toNat → 2 ^ 64 ≤ s.length.toNat + len.toNat →
    exec (.update len payload) s = .next { s with fault := 4, responsePort := s.responsePort ++ [⟨4, 0x02, []⟩] }

/-- R247: while FAULT is set every command, INIT among them, is refused with 0x80 + FAULT and changes nothing. -/
def Obligations.EveryCommandIsRefusedAfterAFault : Prop :=
  ∀ (i : Instr) (o : Opcode) (s : State), s.fault ≠ 0 → commandOf i = some o →
    exec i s = .next { s with responsePort := s.responsePort ++ [⟨0x80 + s.fault, opcodeByte o, []⟩] }

/-- R39, R247, R249: only a reset clears FAULT. Without one, a step in a faulted engine keeps FAULT and the context,
and sends at most one response, the refusal. -/
def Obligations.FaultIsLeftOnlyByReset : Prop :=
  ∀ s t : State, s.fault ≠ 0 → s.NoReset → step s = .next t →
    t.fault = s.fault ∧ State.SameContext s t ∧
    (t.responsePort = s.responsePort ∨
      ∃ echo : Byte, t.responsePort = s.responsePort ++ [⟨0x80 + s.fault, echo, []⟩])

/-- R246: a step that records a fault has no other effect than taking the packet and answering it. That what is left of
the transfer, its end without the packet's header at least, then stands first on the port, before everything sent
later, is the model's choice (log 11). -/
def Obligations.FaultsArePrecise : Prop :=
  ∀ s t : State, s.fault = 0 → step s = .next t → t.fault ≠ 0 →
    State.SameContext s t ∧ State.SameModelFields s t ∧
    ∃ (opc : Byte) (bytes rest : List Byte) (later : List HostInput),
      s.commandPort = .sent bytes :: later ∧ bytes.head? = some opc ∧
      t.responsePort = s.responsePort ++ [⟨t.fault, opc, []⟩] ∧
      t.commandPort = remaining rest later ∧ rest <:+ bytes ∧ rest.length + 8 ≤ bytes.length

/-- R89 (a), R241: a header whose OPC is none of the six raises fault 1, whatever the rest of it holds. That the whole
transfer is taken is the model's choice (log 11). -/
def Obligations.IllegalOpcodeFaults : Prop :=
  ∀ (opc : Byte) (bytes : List Byte) (later : List HostInput) (s : State),
    s.fault = 0 → s.unitCalls = [] → s.commandPort = .sent (opc :: bytes) :: later → 7 ≤ bytes.length →
    (∀ o : Opcode, opcodeByte o ≠ opc) →
    step s = .next { s with
      fault := 1, commandPort := later, responsePort := s.responsePort ++ [⟨1, opc, []⟩] }

/-- R89 (b), (c), R90, R248: a legal opcode with a reserved header byte that is not 0, or HASH32 with a seed word
above 32 bits, raises fault 2 in either phase: before the phase is looked at. The packet is the whole transfer (log
1). -/
def Obligations.ReservedFieldFaultsBeforeThePhase : Prop :=
  ∀ (o : Opcode) (bytes : List Byte) (later : List HostInput) (s : State),
    s.fault = 0 → s.unitCalls = [] → s.commandPort = .sent (opcodeByte o :: bytes) :: later →
    (opcodeByte o :: bytes).length = headBytes o + announced o (opcodeByte o :: bytes) →
    ((∃ j, j < 7 ∧ bytes.getD j 0 ≠ 0) ∨ (o = .hash32 ∧ ∃ j, 11 ≤ j ∧ j < 15 ∧ bytes.getD j 0 ≠ 0)) →
    step s = .next { s with
      fault := 2, commandPort := later, responsePort := s.responsePort ++ [⟨2, opcodeByte o, []⟩] }

/-- R270, R272: a reset (an item of the command port, log 9) at the front of the engine's port, or behind the first bytes
of a header, which it abandons, makes the context UNINIT, clears FAULT, and sends no response, in a faulted engine too.
(Behind a longer part of a packet: IncompletePacketHasNoStep.) -/
def Obligations.ResetClearsFaultAndPhase : Prop :=
  ∀ (later : List HostInput) (s : State), s.unitCalls = [] →
    (s.commandPort = .reset :: later ∨
      ∃ front : List Byte, 0 < front.length ∧ front.length < 8 ∧ s.commandPort = .sent front :: .reset :: later) →
    ∃ t : State, step s = .next t ∧ t.phase = .uninit ∧ t.fault = 0 ∧ t.responsePort = s.responsePort ∧
      t.commandPort = later ∧ t.unitCalls = [] ∧ t.unitReturns = s.unitReturns

/-- R37, R44, R271: the state after reset; that the idle engine's step keeps the state is the model's choice (log 12).
-/
def Obligations.ResetStateIsUninitialised : Prop :=
  State.reset.phase = .uninit ∧ State.reset.phase.code = 0 ∧ State.reset.fault = 0 ∧
  State.reset.commandPort = [] ∧ State.reset.responsePort = [] ∧ step State.reset = .next State.reset

/-- R37, R193, R270: a step that leaves READY is a reset that stood first on the port, or right behind bytes of a packet
that it abandoned (log 9); a step that enters READY takes a packet that decodes to INIT and seeds the context with its
seeds. -/
def Obligations.OnlyResetLeavesReady : Prop :=
  ∀ s t : State, step s = .next t →
    (s.phase = .ready → t.phase = .uninit →
      ∃ later : List HostInput,
        (s.commandPort = .reset :: later ∨ ∃ bytes : List Byte, s.commandPort = .sent bytes :: .reset :: later) ∧
        t = applyReset { s with commandPort := later }) ∧
    (s.phase = .uninit → t.phase = .ready →
      ∃ (bytes rest : List Byte) (later : List HostInput) (seed1 seed2 : Word),
        s.commandPort = .sent bytes :: later ∧ decode (.packet bytes) = .instr (.init seed1 seed2) rest ∧
        t.words = expand kp seed1 seed2 ∧ t.length = 0 ∧ t.remainder = 0 ∧ t.commandPort = remaining rest later)

/-! ### The ports and the step -/

/-- R23, R72, R86: a packet at the front of the port that decodes is run, on the state whose port has moved past it.
-/
def Obligations.StepRunsTheDecodedPacket : Prop :=
  ∀ (bytes rest : List Byte) (later : List HostInput) (i : Instr) (s : State),
    s.unitCalls = [] → s.commandPort = .sent bytes :: later → decode (.packet bytes) = .instr i rest →
    i.wf = true ∧
    (rest = [] → step s = exec i { s with commandPort := later }) ∧
    (rest ≠ [] → step s = exec i { s with commandPort := .sent rest :: later })

/-- R91: a unit call (the model's own port, log 7) that decodes is run, on the state that has taken the call. -/
def Obligations.StepRunsTheUnitCall : Prop :=
  ∀ (c : UnitCall) (later : List UnitCall) (i : Instr) (s : State),
    s.unitCalls = c :: later → decode (.call c) = .instr i [] →
    i.wf = true ∧ step s = exec i { s with unitCalls := later }

/-- R71, R90, R272: an engine left with part of a well-formed packet has no step, unless it is refusing or the state tests
already fail; when more bytes come, they continue the packet; when a reset comes, it abandons the packet, makes the
context UNINIT and sends no response. (Ports and transfers: log 1; the stop: log 2; the reset: log 9.) -/
def Obligations.IncompletePacketHasNoStep : Prop :=
  ∀ (i : Instr) (front back : List Byte) (s : State),
    i.wf = true → encode i = .packet (front ++ back) → front ≠ [] → back ≠ [] →
    s.fault = 0 → blocked i s = none → s.unitCalls = [] →
    (s.commandPort = [.sent front] → step s = .fault .incompletePacket) ∧
    (∀ (more : List Byte) (later : List HostInput), s.commandPort = .sent front :: .sent more :: later →
      step s = .next { s with commandPort := .sent (front ++ more) :: later }) ∧
    (∀ later : List HostInput, s.commandPort = .sent front :: .reset :: later →
      ∃ t : State, step s = .next t ∧ t.phase = .uninit ∧ t.fault = 0 ∧ t.responsePort = s.responsePort ∧
        t.commandPort = later ∧ t.unitCalls = [] ∧ t.unitReturns = s.unitReturns)

/-- R90, the last sentence: a fault does not wait for the payload. With all words of a packet there and bytes of its
payload missing: a reserved header byte, or a HASH32 seed word above 32 bits, raises fault 2 in either phase; UPDATE
raises fault 3 in UNINIT, and fault 4 in READY when `LENGTH + len` does not fit. (Fault 1 needs the header alone:
IllegalOpcodeFaults.) That the step then drops the bytes of the payload that are there is the model's choice (log 11). -/
def Obligations.FaultsDoNotWaitForThePayload : Prop :=
  (∀ (o : Opcode) (bytes : List Byte) (later : List HostInput) (s : State),
    s.fault = 0 → s.unitCalls = [] → s.commandPort = .sent bytes :: later → bytes.head? = some (opcodeByte o) →
    headBytes o ≤ bytes.length → bytes.length < headBytes o + announced o bytes →
    ((∃ j, 1 ≤ j ∧ j < 8 ∧ bytes.getD j 0 ≠ 0) ∨ (o = .hash32 ∧ ∃ j, 12 ≤ j ∧ j < 16 ∧ bytes.getD j 0 ≠ 0)) →
    step s = .next { s with
      fault := 2, commandPort := later, responsePort := s.responsePort ++ [⟨2, opcodeByte o, []⟩] }) ∧
  (∀ (len : Word) (part : List Byte) (later : List HostInput) (s : State),
    s.fault = 0 → s.unitCalls = [] → part.length < len.toNat →
    s.commandPort = .sent (enc64 0x02 ++ enc64 len ++ part) :: later →
    (s.phase = .uninit →
      step s = .next { s with
        fault := 3, commandPort := later, responsePort := s.responsePort ++ [⟨3, 0x02, []⟩] }) ∧
    (s.phase = .ready → 2 ^ 64 ≤ s.length.toNat + len.toNat →
      step s = .next { s with
        fault := 4, commandPort := later, responsePort := s.responsePort ++ [⟨4, 0x02, []⟩] }))

/-- R71: a command whose payload is not `len` bytes has no step, unless it is refused or faults before the payload
counts. -/
def Obligations.IllFormedCommandHasNoStep : Prop :=
  ∀ (i : Instr) (o : Opcode) (s : State),
    commandOf i = some o → i.wf = false → s.fault = 0 → blocked i s = none →
    exec i s = .fault .incompletePacket

/-- R91: the unused codes 0x0 and 0x8 to 0xF have no meaning (the model's stop, log 8). -/
def Obligations.UnusedUnitCodesAreRefused : Prop :=
  ∀ (c : UnitCall) (later : List UnitCall) (s : State),
    s.unitCalls = c :: later → c.uop = 0 ∨ 8 ≤ c.uop.toNat → step s = .refused (.unusedUop c.uop)

/-- R87, R88: a step that takes bytes from the port sends at most one response, whose ECHO is the first byte, and
whose result words are there only when STATUS is 0. -/
def Obligations.OneResponseEchoesTheOpcode : Prop :=
  ∀ (bytes : List Byte) (later : List HostInput) (s t : State),
    s.unitCalls = [] → s.commandPort = .sent bytes :: later → step s = .next t →
    t.responsePort = s.responsePort ∨
    ∃ r : Response, t.responsePort = s.responsePort ++ [r] ∧ bytes.head? = some r.echo ∧
      (r.status ≠ 0 → r.results = [])

/-- R87: the layout of a response's first word, and of its bytes. -/
def Obligations.ResponseWordHoldsStatusAndEcho : Prop :=
  ∀ r : Response, r.word0.toNat = r.status.toNat + 2 ^ 8 * r.echo.toNat ∧
    r.bytes.take 2 = [r.status, r.echo] ∧ r.bytes.length = 8 * (1 + r.results.length)

/-- R22, R91: with the model's own unit-call port (log 7), packets and resets never make a unit call; a unit call
changes no register of the spec. -/
def Obligations.UnitCallsTouchNoRegister : Prop :=
  ∀ s t : State, step s = .next t →
    (s.unitCalls = [] → t.unitCalls = [] ∧ t.unitReturns = s.unitReturns) ∧
    (s.unitCalls ≠ [] → State.SameContext s t ∧ t.fault = s.fault ∧ t.commandPort = s.commandPort ∧
      t.responsePort = s.responsePort)

/-- R34, R42, R45 (which the spec derives from R31, R37 and R243): the scratch bytes of BUF, and the whole context
while UNINIT, are never observed: two states alike up to them take alike steps. -/
def Obligations.UnspecifiedStateIsNeverObserved : Prop :=
  ∀ s t : State, State.Alike s t →
    (∀ s', step s = .next s' → ∃ t', step t = .next t' ∧ State.Alike s' t') ∧
    (∀ f, step s = .fault f → step t = .fault f) ∧
    (∀ r, step s = .refused r → step t = .refused r)

/-! ### The invariant -/

/-- R36, R41, R46 (i), (ii) (item (ii) the spec derives from R190, R195 and R244): every step keeps the invariant,
from every state that meets it. -/
def Obligations.StepKeepsTheInvariant : Prop :=
  ∀ s t : State, s.Inv → step s = .next t → t.Inv

/-- R41, R44: the state after reset meets the invariant. -/
def Obligations.ResetMeetsTheInvariant : Prop := State.reset.Inv

/-! ### Encoding -/

/-- R81 to R86, R91: every well-formed instruction is what its own code decodes to, and on the command port what
follows the packet is left over. -/
def Obligations.DecodeOfEncodeIsTheInstruction : Prop :=
  ∀ i : Instr, i.wf = true →
    decode (encode i) = .instr i [] ∧
    ∀ bytes rest : List Byte, encode i = .packet bytes → decode (.packet (bytes ++ rest)) = .instr i rest

/-- R83, R85, R89: a packet that decodes is, byte for byte, the encoding of a well-formed instruction and what
follows. -/
def Obligations.DecodedPacketsAreTheirEncodings : Prop :=
  ∀ (bytes rest : List Byte) (i : Instr), decode (.packet bytes) = .instr i rest →
    i.wf = true ∧ ∃ packet : List Byte, encode i = .packet packet ∧ bytes = packet ++ rest

/-- R86, which the spec derives from R83 and R85: the size of every packet. -/
def Obligations.PacketSizesFollowTheFormats : Prop :=
  ∀ (seed1 seed2 seed len : Word) (seed32 : BitVec 32) (m : List Byte), m.length = len.toNat →
    ∃ p1 p2 p3 p4 p5 p6 : List Byte,
      encode .final = .packet p1 ∧ p1.length = 8 ∧
      encode (.init seed1 seed2) = .packet p2 ∧ p2.length = 24 ∧
      encode (.update len m) = .packet p3 ∧ p3.length = 16 + len.toNat ∧
      encode (.hash128 seed1 seed2 len m) = .packet p4 ∧ p4.length = 32 + len.toNat ∧
      encode (.hash64 seed len m) = .packet p5 ∧ p5.length = 24 + len.toNat ∧
      encode (.hash32 seed32 len m) = .packet p6 ∧ p6.length = 24 + len.toNat

/-- R85, R91: the words of all thirteen rows of the opcode table decode to their instructions, with operands of zero. How
a row's bits are laid out as a packet or as a unit call is the model's choice (log 14, log 7). -/
def Obligations.TableWordsDecode : Prop :=
  decodeTableWord 64 0x01 = some (.init 0 0) ∧ decodeTableWord 64 0x02 = some (.update 0 []) ∧
  decodeTableWord 64 0x03 = some .final ∧ decodeTableWord 64 0x10 = some (.hash128 0 0 0 []) ∧
  decodeTableWord 64 0x11 = some (.hash64 0 0 []) ∧ decodeTableWord 64 0x12 = some (.hash32 0 0 []) ∧
  decodeTableWord 8 0x1 = some (.mix (Vector.replicate 12 0) (Vector.replicate 12 0)) ∧
  decodeTableWord 8 0x2 = some (.endPartial (Vector.replicate 12 0)) ∧
  decodeTableWord 8 0x3 = some (.endHash (Vector.replicate 12 0) (Vector.replicate 12 0)) ∧
  decodeTableWord 8 0x4 = some (.shortMix (Vector.replicate 4 0)) ∧
  decodeTableWord 8 0x5 = some (.shortEnd (Vector.replicate 4 0)) ∧
  decodeTableWord 8 0x6 = some (.short [] 0 0) ∧ decodeTableWord 8 0x7 = some (.expand 0 0) ∧
  decodeTableWord 64 0x00 = none ∧ decodeTableWord 64 0x103 = none ∧ decodeTableWord 8 0x8 = none

/-- R81 to R85, R89: packets written out byte by byte (those of vectors F2, F5 and F7 among them) decode to what they
stand for. So does a call of EXPAND, by R91's code and the order of its operands; no packet encodes that call, and its
layout is the model's own (log 7). -/
def Obligations.WrittenOutCodesDecode : Prop :=
  decode (.packet [1, 0, 0, 0, 0, 0, 0, 0, 1, 2, 3, 4, 5, 6, 7, 8, 0xef, 0xcd, 0xab, 0x89, 0x67, 0x45, 0x23, 0x01]) =
    .instr (.init 0x0807060504030201 0x0123456789ABCDEF) [] ∧
  decode (.packet [2, 0, 0, 0, 0, 0, 0, 0, 3, 0, 0, 0, 0, 0, 0, 0, 0x61, 0x62, 0x63]) =
    .instr (.update 3 [0x61, 0x62, 0x63]) [] ∧
  decode (.packet [3, 0, 0, 0, 0, 0, 0, 0, 3]) = .instr .final [3] ∧
  decode (.packet [0x12, 0, 0, 0, 0, 0, 0, 0, 0xff, 0xff, 0xff, 0x7f, 0, 0, 0, 0, 0, 0, 0, 0, 0, 0, 0, 0]) =
    .instr (.hash32 0x7FFFFFFF 0 []) [] ∧
  decode (.packet [0x12, 0, 0, 0, 0, 0, 0, 0, 0, 0, 0, 0, 1, 0, 0, 0, 0, 0, 0, 0, 0, 0, 0, 0]) = .reservedField 0x12 [] ∧
  decode (.packet [4, 0, 0, 0, 0, 0, 0, 0]) = .illegalOpcode 4 ∧
  decode (.call ⟨0x7, [7, 8], []⟩) = .instr (.expand 7 8) []
end

