-- ==== Sys2Proof/Laws/Codec.lean ====
section
/-! SUPPORT. The small lemmas of the Word Codec. -/

namespace Sys2Proof.Machine

@[simp] theorem zeros_length (n : Nat) : (zeros n).length = n := List.length_replicate

@[simp] theorem enc64_length (v : Word) : (enc64 v).length = 8 := by simp [enc64]

@[simp] theorem leNat_nil : leNat [] = 0 := rfl

@[simp] theorem leNat_cons (b : Byte) (bs : List Byte) : leNat (b :: bs) = b.toNat + 2 ^ 8 * leNat bs := rfl

/-- `n` bytes decode to a number below 2^(8n). -/
theorem leNat_lt (bs : List Byte) : leNat bs < 2 ^ (8 * bs.length) := by
  induction bs with
  | nil => simp
  | cons b bs ih =>
    have hb := b.isLt
    have : (2 : Nat) ^ (8 * (b :: bs).length) = 2 ^ 8 * 2 ^ (8 * bs.length) := by
      rw [← Nat.pow_add]
      congr 1
      simp only [List.length_cons]
      omega
    rw [this, leNat_cons]
    generalize 2 ^ (8 * bs.length) = p at *
    omega

theorem leNat_append (bs cs : List Byte) : leNat (bs ++ cs) = leNat bs + 2 ^ (8 * bs.length) * leNat cs := by
  induction bs with
  | nil => simp
  | cons b bs ih =>
    have : (2 : Nat) ^ (8 * (b :: bs).length) = 2 ^ 8 * 2 ^ (8 * bs.length) := by
      rw [← Nat.pow_add]
      congr 1
      simp only [List.length_cons]
      omega
    rw [List.cons_append, leNat_cons, leNat_cons, ih, this]
    ring

@[simp] theorem leNat_zeros (n : Nat) : leNat (zeros n) = 0 := by
  induction n with
  | zero => rfl
  | succ n ih => simpa [zeros, List.replicate_succ] using ih

/-- Up to eight bytes decode without loss. -/
theorem le64_toNat (bs : List Byte) (h : bs.length ≤ 8) : (le64 bs).toNat = leNat bs := by
  have h1 := leNat_lt bs
  have h2 : (2 : Nat) ^ (8 * bs.length) ≤ 2 ^ 64 := Nat.pow_le_pow_right (by decide) (by omega)
  exact Nat.mod_eq_of_lt (by omega)

/-- Zero padding does not change the decoded word. -/
theorem le64P_eq_le64 (bs : List Byte) : le64P bs = le64 bs := by
  simp [le64P, le64, leNat_append]

theorem slice_length (m : List Byte) (i j : Nat) (h : j ≤ m.length) : (slice m i j).length = j - i := by
  simp only [slice, List.length_take, List.length_drop]
  omega

theorem padTag_length (b : List Byte) (t : Byte) (h : b.length ≤ 95) : (padTag b t).length = 96 := by
  simp only [padTag, List.length_append, zeros_length, List.length_cons, List.length_nil]
  omega

/-- A word of a decoded block. -/
theorem block12_getElem (b : List Byte) (i : Fin 12) :
    (block12 b)[i] = le64 (slice b (8 * i.1) (8 * i.1 + 8)) := by
  simp [block12]

end Sys2Proof.Machine
end

