-- ==== Sys2Proof/Laws/Decode.lean ====
section
/-! SUPPORT. What the decoder can answer, said once, and what it says of the instruction it answers with. -/

namespace Sys2Proof.Machine

/-- OPC is the first byte of a packet (R81, R82). -/
theorem headerOpc_cons (opc : Byte) (r : List Byte) (h : 7 ≤ r.length) :
    headerOpc (packetWord (opc :: r) 0) = opc := by
  have hl : (slice (opc :: r) 0 8).length = 8 := slice_length _ _ _ (by simpa using h)
  apply BitVec.eq_of_toNat_eq
  rw [headerOpc, packetWord, BitVec.toNat_setWidth, Nat.mul_zero, Nat.zero_add, le64_toNat _ (by omega)]
  have := opc.isLt
  simp only [slice, Nat.sub_zero, List.drop_zero, List.take_succ_cons, leNat_cons]
  omega

@[simp] theorem opcodeOf_opcodeByte (o : Opcode) : opcodeOf (opcodeByte o) = some o := by cases o <;> rfl

/-- An opcode has one byte (R85). -/
theorem opcodeOf_eq_some {opc : Byte} {o : Opcode} (h : opcodeOf opc = some o) : opc = opcodeByte o := by
  unfold opcodeOf at h
  split at h <;> simp only [Option.some.injEq, reduceCtorEq] at h <;> subst h <;>
    exact BitVec.eq_of_toNat_eq (by assumption)

/-- A payload is all there or it is not. -/
theorem takePayload_cases (len : Word) (body : List Byte) (mk : List Byte → Instr) :
    (body.length < len.toNat ∧ takePayload len body mk = .shortPayload (mk body)) ∨
    (len.toNat ≤ body.length ∧
      takePayload len body mk = .instr (mk (body.take len.toNat)) (body.drop len.toNat)) := by
  by_cases h : body.length < len.toNat
  · exact .inl ⟨h, if_pos h⟩
  · exact .inr ⟨Nat.le_of_not_lt h, if_neg h⟩

/-- What `decodeOperands` answers for a command with a payload. -/
theorem takePayload_command {o : Opcode} {mk : List Byte → Instr} (len : Word) (body : List Byte)
    (hc : ∀ p, commandOf (mk p) = some o) (hw : ∀ p, (mk p).wf = payloadOk len p) :
    (∃ i rest, takePayload len body mk = .instr i rest ∧ rest <:+ body ∧ commandOf i = some o ∧ i.wf = true) ∨
    (∃ i, takePayload len body mk = .shortPayload i ∧ commandOf i = some o) := by
  obtain ⟨_, e⟩ | ⟨h, e⟩ := takePayload_cases len body mk
  · exact .inr ⟨_, e, hc _⟩
  · exact .inl ⟨_, _, e, List.drop_suffix .., hc _, by rw [hw]; simp [payloadOk, h]⟩

/-- Everything `decodeOperands` can answer. -/
theorem decodeOperands_cases (o : Opcode) (bytes body : List Byte) :
    (∃ i rest, decodeOperands o bytes body = .instr i rest ∧ rest <:+ body ∧ commandOf i = some o ∧ i.wf = true) ∨
    (∃ i, decodeOperands o bytes body = .shortPayload i ∧ commandOf i = some o) ∨
    decodeOperands o bytes body = .reservedField (opcodeByte o) (body.drop (announced o bytes)) := by
  cases o
  · exact .inl ⟨_, _, rfl, List.suffix_rfl, rfl, rfl⟩
  · exact (takePayload_command _ body (fun _ => rfl) fun _ => rfl).imp_right .inl
  · exact .inl ⟨_, _, rfl, List.suffix_rfl, rfl, rfl⟩
  · exact (takePayload_command _ body (fun _ => rfl) fun _ => rfl).imp_right .inl
  · exact (takePayload_command _ body (fun _ => rfl) fun _ => rfl).imp_right .inl
  · by_cases h : seedHigh (packetWord bytes 1) = 0
    · have e : decodeOperands .hash32 bytes body = takePayload (packetWord bytes 2) body fun p =>
          .hash32 (low32 (packetWord bytes 1)) (packetWord bytes 2) p := if_neg (not_not.mpr h)
      rw [e]
      exact (takePayload_command _ body (fun _ => rfl) fun _ => rfl).imp_right .inl
    · exact .inr (.inr (if_pos h))

/-- What is left of a transfer after a packet: its end, without the packet's header at least (R86). -/
abbrev LeftOver (bytes rest : List Byte) : Prop := rest <:+ bytes ∧ rest.length + 8 ≤ bytes.length

/-- What is left after the words of a packet, and after any part of its payload. -/
theorem leftOver_of_suffix {o : Opcode} {bytes rest : List Byte} (hl : headBytes o ≤ bytes.length)
    (hs : rest <:+ bytes.drop (headBytes o)) : LeftOver bytes rest := by
  refine ⟨hs.trans (List.drop_suffix ..), ?_⟩
  have h8 : 8 ≤ headBytes o := by cases o <;> decide
  have := hs.length_le
  rw [List.length_drop] at this
  omega

/-- A whole packet, or a whole transfer, leaves nothing. -/
theorem leftOver_nil {opc : Byte} {r : List Byte} (hr : 7 ≤ r.length) : LeftOver (opc :: r) [] :=
  ⟨List.nil_suffix, by simpa using hr⟩

/-- Everything the decoder of the command port can answer. -/
inductive PacketCase (bytes : List Byte) : Prop
  | noHeader (hl : bytes.length < 8) (hd : decodePacket bytes = .noHeader)
  | illegalOpcode (opc : Byte) (r : List Byte) (hb : bytes = opc :: r) (hr : 7 ≤ r.length)
      (ho : opcodeOf opc = none) (hd : decodePacket bytes = .illegalOpcode opc)
  | shortWords (o : Opcode) (r : List Byte) (hb : bytes = opcodeByte o :: r) (hr : 7 ≤ r.length)
      (hl : bytes.length < headBytes o) (hd : decodePacket bytes = .shortWords (opcodeByte o))
  | reservedField (o : Opcode) (r : List Byte) (hb : bytes = opcodeByte o :: r) (hr : 7 ≤ r.length)
      (hs : LeftOver bytes ((bytes.drop (headBytes o)).drop (announced o bytes)))
      (hd : decodePacket bytes =
        .reservedField (opcodeByte o) ((bytes.drop (headBytes o)).drop (announced o bytes)))
  | shortPayload (o : Opcode) (r : List Byte) (i : Instr) (hb : bytes = opcodeByte o :: r) (hr : 7 ≤ r.length)
      (hc : commandOf i = some o) (hd : decodePacket bytes = .shortPayload i)
  | instr (o : Opcode) (r : List Byte) (i : Instr) (rest : List Byte) (hb : bytes = opcodeByte o :: r)
      (hr : 7 ≤ r.length) (hs : LeftOver bytes rest) (hc : commandOf i = some o) (hw : i.wf = true)
      (hd : decodePacket bytes = .instr i rest)

/-- `decodePacket` past the header test, for a legal opcode (R89, R90). -/
theorem decodePacket_legal (o : Opcode) (r : List Byte) (hr : 7 ≤ r.length) :
    decodePacket (opcodeByte o :: r) =
      if (opcodeByte o :: r).length < headBytes o then .shortWords (opcodeByte o)
      else if headerRsv (packetWord (opcodeByte o :: r) 0) ≠ 0 then
        .reservedField (opcodeByte o)
          (((opcodeByte o :: r).drop (headBytes o)).drop (announced o (opcodeByte o :: r)))
      else decodeOperands o (opcodeByte o :: r) ((opcodeByte o :: r).drop (headBytes o)) := by
  have hl : ¬ (opcodeByte o :: r).length < 8 := by simp only [List.length_cons]; omega
  simp only [decodePacket, if_neg hl, headerOpc_cons _ _ hr, opcodeOf_opcodeByte]

theorem decodePacket_cases (bytes : List Byte) : PacketCase bytes := by
  by_cases hl : bytes.length < 8
  · exact .noHeader hl (if_pos hl)
  · obtain ⟨opc, r, hb⟩ := List.exists_cons_of_length_pos (l := bytes) (by omega)
    have hr : 7 ≤ r.length := by rw [hb, List.length_cons] at hl; omega
    cases ho : opcodeOf opc with
    | none =>
      refine .illegalOpcode opc r hb hr ho ?_
      subst hb
      simp only [decodePacket, if_neg hl, headerOpc_cons _ _ hr, ho]
    | some o =>
      obtain rfl := opcodeOf_eq_some ho
      have hd := decodePacket_legal o r hr
      rw [← hb] at hd
      split at hd
      · next hw => exact .shortWords o r hb hr hw hd
      · next hw =>
        have hl := Nat.le_of_not_lt hw
        have hs := leftOver_of_suffix hl (List.drop_suffix (announced o bytes) (bytes.drop (headBytes o)))
        split at hd
        · exact .reservedField o r hb hr hs hd
        · obtain ⟨i, rest, h, hi, hc, hw⟩ | ⟨i, h, hc⟩ | h :=
            decodeOperands_cases o bytes (bytes.drop (headBytes o))
          · exact .instr o r i rest hb hr (leftOver_of_suffix hl hi) hc hw (hd.trans h)
          · exact .shortPayload o r i hb hr hc (hd.trans h)
          · exact .reservedField o r hb hr hs (hd.trans h)

/-- A unit call decodes to a unit operation, well formed. -/
theorem decodeCall_instr {c : UnitCall} {i : Instr} {rest : List Byte} (h : decodeCall c = .instr i rest) :
    commandOf i = none ∧ i.wf = true := by
  unfold decodeCall at h
  split at h
  · simp only [reduceCtorEq] at h
  · split at h
    · next hm =>
      unfold decodeUnit at h
      split at h
      case h_6 hu =>
        obtain ⟨rfl, _⟩ := Decoded.instr.inj h
        have hu : c.uop = 6 := BitVec.eq_of_toNat_eq hu
        have hm := (Bool.and_eq_true_iff.mp hm).2
        rw [messageOk, if_pos hu] at hm
        exact ⟨rfl, hm⟩
      all_goals first
        | (obtain ⟨rfl, _⟩ := Decoded.instr.inj h; exact ⟨rfl, rfl⟩)
        | simp only [reduceCtorEq] at h
    · simp only [reduceCtorEq] at h

end Sys2Proof.Machine
end

