-- ==== Sys2Proof/Laws/State.lean ====
section
/-! SUPPORT. The fields of the state after each of its updates: one lemma a field and update. -/

namespace Sys2Proof.Machine

section

variable (s : State) (w : Words12) (b : Vector Byte 192) (l : BitVec Config.lenw) (r : BitVec 7)

@[simp] theorem State.setContext_words : (s.setContext w b l r).words = w := rfl
@[simp] theorem State.setContext_buf : (s.setContext w b l r).buf = b := rfl
@[simp] theorem State.setContext_length : (s.setContext w b l r).length = l := rfl
@[simp] theorem State.setContext_remainder : (s.setContext w b l r).remainder = r := rfl
@[simp] theorem State.setContext_phase : (s.setContext w b l r).phase = s.phase := rfl
@[simp] theorem State.setContext_fault : (s.setContext w b l r).fault = s.fault := rfl
@[simp] theorem State.setContext_commandPort : (s.setContext w b l r).commandPort = s.commandPort := rfl
@[simp] theorem State.setContext_responsePort : (s.setContext w b l r).responsePort = s.responsePort := rfl
@[simp] theorem State.setContext_unitCalls : (s.setContext w b l r).unitCalls = s.unitCalls := rfl
@[simp] theorem State.setContext_unitReturns : (s.setContext w b l r).unitReturns = s.unitReturns := rfl
@[simp] theorem State.setContext_freeDraws : (s.setContext w b l r).freeDraws = s.freeDraws := rfl

end

section

variable (s : State) (p : Phase)

@[simp] theorem State.setPhase_words : (s.setPhase p).words = s.words := rfl
@[simp] theorem State.setPhase_buf : (s.setPhase p).buf = s.buf := rfl
@[simp] theorem State.setPhase_length : (s.setPhase p).length = s.length := rfl
@[simp] theorem State.setPhase_remainder : (s.setPhase p).remainder = s.remainder := rfl
@[simp] theorem State.setPhase_phase : (s.setPhase p).phase = p := rfl
@[simp] theorem State.setPhase_fault : (s.setPhase p).fault = s.fault := rfl
@[simp] theorem State.setPhase_commandPort : (s.setPhase p).commandPort = s.commandPort := rfl
@[simp] theorem State.setPhase_responsePort : (s.setPhase p).responsePort = s.responsePort := rfl
@[simp] theorem State.setPhase_unitCalls : (s.setPhase p).unitCalls = s.unitCalls := rfl
@[simp] theorem State.setPhase_unitReturns : (s.setPhase p).unitReturns = s.unitReturns := rfl
@[simp] theorem State.setPhase_freeDraws : (s.setPhase p).freeDraws = s.freeDraws := rfl

end

section

variable (s : State) (c : BitVec 8)

@[simp] theorem State.setFault_words : (s.setFault c).words = s.words := rfl
@[simp] theorem State.setFault_buf : (s.setFault c).buf = s.buf := rfl
@[simp] theorem State.setFault_length : (s.setFault c).length = s.length := rfl
@[simp] theorem State.setFault_remainder : (s.setFault c).remainder = s.remainder := rfl
@[simp] theorem State.setFault_phase : (s.setFault c).phase = s.phase := rfl
@[simp] theorem State.setFault_fault : (s.setFault c).fault = c := rfl
@[simp] theorem State.setFault_commandPort : (s.setFault c).commandPort = s.commandPort := rfl
@[simp] theorem State.setFault_responsePort : (s.setFault c).responsePort = s.responsePort := rfl
@[simp] theorem State.setFault_unitCalls : (s.setFault c).unitCalls = s.unitCalls := rfl
@[simp] theorem State.setFault_unitReturns : (s.setFault c).unitReturns = s.unitReturns := rfl
@[simp] theorem State.setFault_freeDraws : (s.setFault c).freeDraws = s.freeDraws := rfl

end

section

variable (s : State) (port : List HostInput)

@[simp] theorem State.setPort_words : (s.setPort port).words = s.words := rfl
@[simp] theorem State.setPort_buf : (s.setPort port).buf = s.buf := rfl
@[simp] theorem State.setPort_length : (s.setPort port).length = s.length := rfl
@[simp] theorem State.setPort_remainder : (s.setPort port).remainder = s.remainder := rfl
@[simp] theorem State.setPort_phase : (s.setPort port).phase = s.phase := rfl
@[simp] theorem State.setPort_fault : (s.setPort port).fault = s.fault := rfl
@[simp] theorem State.setPort_commandPort : (s.setPort port).commandPort = port := rfl
@[simp] theorem State.setPort_responsePort : (s.setPort port).responsePort = s.responsePort := rfl
@[simp] theorem State.setPort_unitCalls : (s.setPort port).unitCalls = s.unitCalls := rfl
@[simp] theorem State.setPort_unitReturns : (s.setPort port).unitReturns = s.unitReturns := rfl
@[simp] theorem State.setPort_freeDraws : (s.setPort port).freeDraws = s.freeDraws := rfl

end

section

variable (s : State) (r : Response)

@[simp] theorem State.respond_words : (s.respond r).words = s.words := rfl
@[simp] theorem State.respond_buf : (s.respond r).buf = s.buf := rfl
@[simp] theorem State.respond_length : (s.respond r).length = s.length := rfl
@[simp] theorem State.respond_remainder : (s.respond r).remainder = s.remainder := rfl
@[simp] theorem State.respond_phase : (s.respond r).phase = s.phase := rfl
@[simp] theorem State.respond_fault : (s.respond r).fault = s.fault := rfl
@[simp] theorem State.respond_commandPort : (s.respond r).commandPort = s.commandPort := rfl
@[simp] theorem State.respond_responsePort : (s.respond r).responsePort = s.responsePort ++ [r] := rfl
@[simp] theorem State.respond_unitCalls : (s.respond r).unitCalls = s.unitCalls := rfl
@[simp] theorem State.respond_unitReturns : (s.respond r).unitReturns = s.unitReturns := rfl
@[simp] theorem State.respond_freeDraws : (s.respond r).freeDraws = s.freeDraws := rfl

end

section

variable (s : State) (calls : List UnitCall)

@[simp] theorem State.setCalls_words : (s.setCalls calls).words = s.words := rfl
@[simp] theorem State.setCalls_buf : (s.setCalls calls).buf = s.buf := rfl
@[simp] theorem State.setCalls_length : (s.setCalls calls).length = s.length := rfl
@[simp] theorem State.setCalls_remainder : (s.setCalls calls).remainder = s.remainder := rfl
@[simp] theorem State.setCalls_phase : (s.setCalls calls).phase = s.phase := rfl
@[simp] theorem State.setCalls_fault : (s.setCalls calls).fault = s.fault := rfl
@[simp] theorem State.setCalls_commandPort : (s.setCalls calls).commandPort = s.commandPort := rfl
@[simp] theorem State.setCalls_responsePort : (s.setCalls calls).responsePort = s.responsePort := rfl
@[simp] theorem State.setCalls_unitCalls : (s.setCalls calls).unitCalls = calls := rfl
@[simp] theorem State.setCalls_unitReturns : (s.setCalls calls).unitReturns = s.unitReturns := rfl
@[simp] theorem State.setCalls_freeDraws : (s.setCalls calls).freeDraws = s.freeDraws := rfl

end

section

variable (s : State) (r : UnitReturn)

@[simp] theorem State.returnUnit_words : (s.returnUnit r).words = s.words := rfl
@[simp] theorem State.returnUnit_buf : (s.returnUnit r).buf = s.buf := rfl
@[simp] theorem State.returnUnit_length : (s.returnUnit r).length = s.length := rfl
@[simp] theorem State.returnUnit_remainder : (s.returnUnit r).remainder = s.remainder := rfl
@[simp] theorem State.returnUnit_phase : (s.returnUnit r).phase = s.phase := rfl
@[simp] theorem State.returnUnit_fault : (s.returnUnit r).fault = s.fault := rfl
@[simp] theorem State.returnUnit_commandPort : (s.returnUnit r).commandPort = s.commandPort := rfl
@[simp] theorem State.returnUnit_responsePort : (s.returnUnit r).responsePort = s.responsePort := rfl
@[simp] theorem State.returnUnit_unitCalls : (s.returnUnit r).unitCalls = s.unitCalls := rfl
@[simp] theorem State.returnUnit_unitReturns : (s.returnUnit r).unitReturns = s.unitReturns ++ [r] := rfl
@[simp] theorem State.returnUnit_freeDraws : (s.returnUnit r).freeDraws = s.freeDraws := rfl

end

section

variable (s : State)

@[simp] theorem State.draw_words : (s.draw).words = s.words := rfl
@[simp] theorem State.draw_buf : (s.draw).buf = s.buf := rfl
@[simp] theorem State.draw_length : (s.draw).length = s.length := rfl
@[simp] theorem State.draw_remainder : (s.draw).remainder = s.remainder := rfl
@[simp] theorem State.draw_phase : (s.draw).phase = s.phase := rfl
@[simp] theorem State.draw_fault : (s.draw).fault = s.fault := rfl
@[simp] theorem State.draw_commandPort : (s.draw).commandPort = s.commandPort := rfl
@[simp] theorem State.draw_responsePort : (s.draw).responsePort = s.responsePort := rfl
@[simp] theorem State.draw_unitCalls : (s.draw).unitCalls = s.unitCalls := rfl
@[simp] theorem State.draw_unitReturns : (s.draw).unitReturns = s.unitReturns := rfl
@[simp] theorem State.draw_freeDraws : (s.draw).freeDraws = s.freeDraws + 1 := rfl

end

section

@[simp] theorem State.reset_phase : State.reset.phase = .uninit := rfl
@[simp] theorem State.reset_fault : State.reset.fault = 0 := rfl
@[simp] theorem State.reset_commandPort : State.reset.commandPort = [] := rfl
@[simp] theorem State.reset_responsePort : State.reset.responsePort = [] := rfl
@[simp] theorem State.reset_unitCalls : State.reset.unitCalls = [] := rfl
@[simp] theorem State.reset_unitReturns : State.reset.unitReturns = [] := rfl

end

end Sys2Proof.Machine
end

