-- ==== Sys2Proof/Laws/Ops.lean ====
section
/-! SUPPORT. What each shared operation can do, said once. -/

namespace Sys2Proof.Machine

/-- Everything a command can do: be refused, raise the fault that blocks it, take effect, or be stuck. -/
theorem command_cases (o : Opcode) (b : Option (BitVec 8)) (complete : Bool) (effect s : State) :
    (s.fault ≠ 0 ∧ command o b complete effect s = .next (refuse (opcodeByte o) s)) ∨
    (s.fault = 0 ∧ ∃ c, b = some c ∧ command o b complete effect s = .next (raise c (opcodeByte o) s)) ∨
    (s.fault = 0 ∧ b = none ∧ complete = true ∧ command o b complete effect s = .next effect) ∨
    (s.fault = 0 ∧ b = none ∧ complete = false ∧ command o b complete effect s = .fault .incompletePacket) := by
  by_cases hf : s.fault = 0
  · cases b with
    | some c => exact .inr (.inl ⟨hf, c, rfl, by simp [command, hf]⟩)
    | none =>
      cases complete with
      | true => exact .inr (.inr (.inl ⟨hf, rfl, rfl, by simp [command, hf]⟩))
      | false => exact .inr (.inr (.inr ⟨hf, rfl, rfl, by simp [command, hf]⟩))
  · exact .inl ⟨hf, if_pos hf⟩

/-- What a command that answers a next state has done. -/
theorem command_next {o : Opcode} {b : Option (BitVec 8)} {complete : Bool} {effect s t : State}
    (h : command o b complete effect s = .next t) :
    (s.fault ≠ 0 ∧ t = refuse (opcodeByte o) s) ∨
    (s.fault = 0 ∧ ∃ c, b = some c ∧ t = raise c (opcodeByte o) s) ∨
    (s.fault = 0 ∧ b = none ∧ complete = true ∧ t = effect) := by
  obtain ⟨h0, h1⟩ | ⟨h0, c, h1, h2⟩ | ⟨h0, h1, h2, h3⟩ | ⟨_, _, _, h3⟩ := command_cases o b complete effect s
  · exact .inl ⟨h0, by simpa [h1, eq_comm] using h⟩
  · exact .inr (.inl ⟨h0, c, h1, by simpa [h2, eq_comm] using h⟩)
  · exact .inr (.inr ⟨h0, h1, h2, by simpa [h3, eq_comm] using h⟩)
  · simp [h3] at h

/-- A command that nothing blocks takes effect. -/
theorem command_effect {o : Opcode} {effect s : State} (hf : s.fault = 0) :
    command o none true effect s = .next effect := by simp [command, hf]

/-- Taking a fault, field by field: FAULT and the one response (R246). -/
theorem raise_eq (c : BitVec 8) (opc : Byte) (s : State) :
    raise c opc s = { s with fault := c, responsePort := s.responsePort ++ [⟨c, opc, []⟩] } := rfl

/-- A refusal, field by field: the one response (R247). -/
theorem refuse_eq (opc : Byte) (s : State) :
    refuse opc s = { s with responsePort := s.responsePort ++ [⟨0x80 + s.fault, opc, []⟩] } := rfl

/-- The answer of a command that is done, field by field. -/
theorem finished_eq (o : Opcode) (results : List Word) (s : State) :
    finished o results s = { s with responsePort := s.responsePort ++ [⟨0, opcodeByte o, results⟩] } := rfl

/-- A packet that is no command is refused or raises its fault. -/
theorem reject_cases (c : BitVec 8) (opc : Byte) (s : State) :
    (s.fault ≠ 0 ∧ reject c opc s = refuse opc s) ∨ (s.fault = 0 ∧ reject c opc s = raise c opc s) := by
  by_cases hf : s.fault = 0
  · exact .inr ⟨hf, by rw [reject, if_neg (not_not.mpr hf)]⟩
  · exact .inl ⟨hf, by rw [reject, if_pos hf]⟩

/-- Reset, field by field (R270). -/
theorem applyReset_eq (s : State) :
    applyReset s =
      { s with
        words := freeWords s.freeDraws, buf := freeBuf s.freeDraws, length := Config.freeWord s.freeDraws 12,
        remainder := Config.freeRemainder s.freeDraws, phase := .uninit, fault := 0,
        freeDraws := s.freeDraws + 1 } := rfl

/-- What the phase test answers. -/
theorem phaseFault_eq_none {s : State} : phaseFault s = none ↔ s.phase = .ready := by
  cases h : s.phase <;> simp [phaseFault, h]

/-- What the two tests of UPDATE answer when neither fails. -/
theorem updateFault_eq_none {len : Word} {s : State} :
    updateFault len s = none ↔ s.phase = .ready ∧ (len = 0 ∨ s.length.toNat + len.toNat < 2 ^ 64) := by
  cases h : s.phase
  · simp [updateFault, phaseFault, h]
  · rw [updateFault, phaseFault_eq_none.mpr h, overflowFault, ite_eq_right_iff]
    by_cases hl : len = 0
    · simp [hl]
    · simp only [ne_eq, hl, not_false_eq_true, true_and, reduceCtorEq, imp_false, not_le, false_or]

/-- The bytes held are as many as REMAINDER says. -/
@[simp] theorem held_length (s : State) : s.held.length = s.remainder.toNat := by
  have := s.remainder.isLt
  simp only [State.held, List.length_take, Vector.length_toList]
  omega

/-- BUF holds what was put at its front. -/
theorem bufHolding_take (held : List Byte) (n : Nat) (h : held.length ≤ 192) :
    (bufHolding held n).toList.take held.length = held := by
  apply List.ext_getElem
  · simp [h]
  · intro i h1 h2
    simp [bufHolding, h2]

/-- What `absorb` leaves unmixed is less than a block. -/
theorem absorb_held_length (kp : KP) (w : Words12) (held bytes : List Byte) :
    (absorb kp w held bytes).2.length = (held.length + bytes.length) % 96 := by
  simp only [absorb, List.length_drop, List.length_append]
  omega

/-- The held bytes and the count after UPDATE's effect (R195). -/
theorem absorbInto_held (payload : List Byte) (s : State) :
    (absorbInto payload s).held = (absorb kp s.words s.held payload).2 ∧
    (absorbInto payload s).remainder.toNat = (s.remainder.toNat + payload.length) % 96 := by
  have h := absorb_held_length kp s.words s.held payload
  rw [held_length] at h
  have hr : (absorbInto payload s).remainder.toNat = (absorb kp s.words s.held payload).2.length := by
    simp only [absorbInto, State.draw_remainder, State.setContext_remainder, BitVec.toNat_ofNat]
    omega
  refine ⟨?_, by rw [hr, h]⟩
  rw [State.held, hr]
  exact bufHolding_take _ _ (by omega)

end Sys2Proof.Machine
end

