-- ==== Sys2Proof/Laws/Effects.lean ====
section
/-! SUPPORT. The fields of the state after each effect: one lemma a field, so that no proof unfolds an effect. -/

namespace Sys2Proof.Machine

/-! ### A command that is done -/

section

variable (o : Opcode) (results : List Word) (s : State)

@[simp] theorem finished_words : (finished o results s).words = s.words := rfl
@[simp] theorem finished_buf : (finished o results s).buf = s.buf := rfl
@[simp] theorem finished_length : (finished o results s).length = s.length := rfl
@[simp] theorem finished_remainder : (finished o results s).remainder = s.remainder := rfl
@[simp] theorem finished_phase : (finished o results s).phase = s.phase := rfl
@[simp] theorem finished_fault : (finished o results s).fault = s.fault := rfl
@[simp] theorem finished_commandPort : (finished o results s).commandPort = s.commandPort := rfl
@[simp] theorem finished_responsePort :
    (finished o results s).responsePort =
      s.responsePort ++ [⟨0, opcodeByte o, results⟩] := rfl
@[simp] theorem finished_unitCalls : (finished o results s).unitCalls = s.unitCalls := rfl
@[simp] theorem finished_unitReturns : (finished o results s).unitReturns = s.unitReturns := rfl
@[simp] theorem finished_freeDraws : (finished o results s).freeDraws = s.freeDraws := rfl

end

/-! ### A fault -/

section

variable (c : BitVec 8) (opc : Byte) (s : State)

@[simp] theorem raise_words : (raise c opc s).words = s.words := rfl
@[simp] theorem raise_buf : (raise c opc s).buf = s.buf := rfl
@[simp] theorem raise_length : (raise c opc s).length = s.length := rfl
@[simp] theorem raise_remainder : (raise c opc s).remainder = s.remainder := rfl
@[simp] theorem raise_phase : (raise c opc s).phase = s.phase := rfl
@[simp] theorem raise_fault : (raise c opc s).fault = c := rfl
@[simp] theorem raise_commandPort : (raise c opc s).commandPort = s.commandPort := rfl
@[simp] theorem raise_responsePort : (raise c opc s).responsePort = s.responsePort ++ [⟨c, opc, []⟩] := rfl
@[simp] theorem raise_unitCalls : (raise c opc s).unitCalls = s.unitCalls := rfl
@[simp] theorem raise_unitReturns : (raise c opc s).unitReturns = s.unitReturns := rfl
@[simp] theorem raise_freeDraws : (raise c opc s).freeDraws = s.freeDraws := rfl

end

/-! ### A refusal -/

section

variable (opc : Byte) (s : State)

@[simp] theorem refuse_words : (refuse opc s).words = s.words := rfl
@[simp] theorem refuse_buf : (refuse opc s).buf = s.buf := rfl
@[simp] theorem refuse_length : (refuse opc s).length = s.length := rfl
@[simp] theorem refuse_remainder : (refuse opc s).remainder = s.remainder := rfl
@[simp] theorem refuse_phase : (refuse opc s).phase = s.phase := rfl
@[simp] theorem refuse_fault : (refuse opc s).fault = s.fault := rfl
@[simp] theorem refuse_commandPort : (refuse opc s).commandPort = s.commandPort := rfl
@[simp] theorem refuse_responsePort :
    (refuse opc s).responsePort =
      s.responsePort ++ [⟨0x80 + s.fault, opc, []⟩] := rfl
@[simp] theorem refuse_unitCalls : (refuse opc s).unitCalls = s.unitCalls := rfl
@[simp] theorem refuse_unitReturns : (refuse opc s).unitReturns = s.unitReturns := rfl
@[simp] theorem refuse_freeDraws : (refuse opc s).freeDraws = s.freeDraws := rfl

end

/-! ### Reset -/

section

variable (s : State)

@[simp] theorem applyReset_words : (applyReset s).words = freeWords s.freeDraws := rfl
@[simp] theorem applyReset_buf : (applyReset s).buf = freeBuf s.freeDraws := rfl
@[simp] theorem applyReset_length : (applyReset s).length = Config.freeWord s.freeDraws 12 := rfl
@[simp] theorem applyReset_remainder : (applyReset s).remainder = Config.freeRemainder s.freeDraws := rfl
@[simp] theorem applyReset_phase : (applyReset s).phase = .uninit := rfl
@[simp] theorem applyReset_fault : (applyReset s).fault = 0 := rfl
@[simp] theorem applyReset_commandPort : (applyReset s).commandPort = s.commandPort := rfl
@[simp] theorem applyReset_responsePort : (applyReset s).responsePort = s.responsePort := rfl
@[simp] theorem applyReset_unitCalls : (applyReset s).unitCalls = s.unitCalls := rfl
@[simp] theorem applyReset_unitReturns : (applyReset s).unitReturns = s.unitReturns := rfl
@[simp] theorem applyReset_freeDraws : (applyReset s).freeDraws = s.freeDraws + 1 := rfl

end

/-! ### INIT -/

section

variable (seed1 seed2 : Word) (s : State)

@[simp] theorem initEffect_words : (initEffect seed1 seed2 s).words = expand kp seed1 seed2 := by
  simp [initEffect]
@[simp] theorem initEffect_buf : (initEffect seed1 seed2 s).buf = s.buf := by
  simp [initEffect]
@[simp] theorem initEffect_length : (initEffect seed1 seed2 s).length = 0 := by
  simp [initEffect]
@[simp] theorem initEffect_remainder : (initEffect seed1 seed2 s).remainder = 0 := by
  simp [initEffect]
@[simp] theorem initEffect_phase : (initEffect seed1 seed2 s).phase = .ready := by
  simp [initEffect]
@[simp] theorem initEffect_fault : (initEffect seed1 seed2 s).fault = s.fault := by
  simp [initEffect]
@[simp] theorem initEffect_commandPort : (initEffect seed1 seed2 s).commandPort = s.commandPort := by
  simp [initEffect]
@[simp] theorem initEffect_responsePort :
    (initEffect seed1 seed2 s).responsePort =
      s.responsePort ++ [⟨0, 0x01, []⟩] := by
  simp [initEffect, opcodeByte]
@[simp] theorem initEffect_unitCalls : (initEffect seed1 seed2 s).unitCalls = s.unitCalls := by
  simp [initEffect]
@[simp] theorem initEffect_unitReturns : (initEffect seed1 seed2 s).unitReturns = s.unitReturns := by
  simp [initEffect]
@[simp] theorem initEffect_freeDraws : (initEffect seed1 seed2 s).freeDraws = s.freeDraws := by
  simp [initEffect]

end

/-! ### FINAL -/

section

variable (s : State)

@[simp] theorem finalEffect_words : (finalEffect s).words = s.words := rfl
@[simp] theorem finalEffect_buf : (finalEffect s).buf = s.buf := rfl
@[simp] theorem finalEffect_length : (finalEffect s).length = s.length := rfl
@[simp] theorem finalEffect_remainder : (finalEffect s).remainder = s.remainder := rfl
@[simp] theorem finalEffect_phase : (finalEffect s).phase = s.phase := rfl
@[simp] theorem finalEffect_fault : (finalEffect s).fault = s.fault := rfl
@[simp] theorem finalEffect_commandPort : (finalEffect s).commandPort = s.commandPort := rfl
@[simp] theorem finalEffect_responsePort :
    (finalEffect s).responsePort =
      s.responsePort ++ [⟨0, 0x03, [(finish kp s.words s.held).1, (finish kp s.words s.held).2]⟩] := rfl
@[simp] theorem finalEffect_unitCalls : (finalEffect s).unitCalls = s.unitCalls := rfl
@[simp] theorem finalEffect_unitReturns : (finalEffect s).unitReturns = s.unitReturns := rfl
@[simp] theorem finalEffect_freeDraws : (finalEffect s).freeDraws = s.freeDraws := rfl

end

/-! ### UPDATE with bytes; its held bytes and REMAINDER are in `absorbInto_held` -/

section

variable (payload : List Byte) (s : State)

@[simp] theorem absorbInto_words : (absorbInto payload s).words = (absorb kp s.words s.held payload).1 := by
  simp [absorbInto]
@[simp] theorem absorbInto_length : (absorbInto payload s).length = s.length + lengthWord payload.length := by
  simp [absorbInto]
@[simp] theorem absorbInto_phase : (absorbInto payload s).phase = s.phase := by
  simp [absorbInto]
@[simp] theorem absorbInto_fault : (absorbInto payload s).fault = s.fault := by
  simp [absorbInto]
@[simp] theorem absorbInto_commandPort : (absorbInto payload s).commandPort = s.commandPort := by
  simp [absorbInto]
@[simp] theorem absorbInto_responsePort : (absorbInto payload s).responsePort = s.responsePort := by
  simp [absorbInto]
@[simp] theorem absorbInto_unitCalls : (absorbInto payload s).unitCalls = s.unitCalls := by
  simp [absorbInto]
@[simp] theorem absorbInto_unitReturns : (absorbInto payload s).unitReturns = s.unitReturns := by
  simp [absorbInto]
@[simp] theorem absorbInto_freeDraws : (absorbInto payload s).freeDraws = s.freeDraws + 1 := by
  simp [absorbInto]

end

/-! ### UPDATE of any length -/

theorem updateEffect_nil (s : State) : updateEffect [] s = finished .update [] s := rfl

theorem updateEffect_of_pos {payload : List Byte} (s : State) (h : 0 < payload.length) :
    updateEffect payload s = finished .update [] (absorbInto payload s) := by
  rw [updateEffect, if_neg (by omega)]

section

variable (payload : List Byte) (s : State)

@[simp] theorem updateEffect_phase : (updateEffect payload s).phase = s.phase := by
  unfold updateEffect
  split <;> rfl

@[simp] theorem updateEffect_fault : (updateEffect payload s).fault = s.fault := by
  unfold updateEffect
  split <;> rfl

@[simp] theorem updateEffect_commandPort : (updateEffect payload s).commandPort = s.commandPort := by
  unfold updateEffect
  split <;> rfl

@[simp] theorem updateEffect_unitCalls : (updateEffect payload s).unitCalls = s.unitCalls := by
  unfold updateEffect
  split <;> rfl

@[simp] theorem updateEffect_unitReturns : (updateEffect payload s).unitReturns = s.unitReturns := by
  unfold updateEffect
  split <;> rfl

@[simp] theorem updateEffect_responsePort :
    (updateEffect payload s).responsePort = s.responsePort ++ [⟨0, 0x02, []⟩] := by
  unfold updateEffect
  split <;> rfl

end

end Sys2Proof.Machine
end

