-- ==== Sys2Proof/Laws/Fetch.lean ====
section
/-! SUPPORT. What a step can do, said once. -/

namespace Sys2Proof.Machine

/-- Everything waiting for the rest of a packet can come to. -/
theorem await_cases (bytes : List Byte) (later : List HostInput) (s : State) :
    (later = [] ∧ await bytes later s = .stuck .incompletePacket) ∨
    (∃ more tail, later = .sent more :: tail ∧
      await bytes later s = .become (s.setPort (.sent (bytes ++ more) :: tail))) ∨
    (∃ tail, later = .reset :: tail ∧ await bytes later s = .become (applyReset (s.setPort tail))) := by
  match later with
  | [] => exact .inl ⟨rfl, rfl⟩
  | .sent more :: tail => exact .inr (.inl ⟨more, tail, rfl, rfl⟩)
  | .reset :: tail => exact .inr (.inr ⟨tail, rfl, rfl⟩)

/-- Everything a step that answers a next state can have done: hold; change the state without running an instruction;
run one. -/
theorem step_next {s t : State} (h : step s = .next t) :
    (nextAction s = .hold ∧ t = s) ∨ nextAction s = .become t ∨
    (∃ i u, nextAction s = .run i u ∧ exec i u = .next t) := by
  unfold step at h
  split at h
  · next hn => exact .inl ⟨hn, by simpa [eq_comm] using h⟩
  · next u hn => exact .inr (.inl (by simpa [hn] using h))
  · next i u hn => exact .inr (.inr ⟨i, u, hn, h⟩)
  · simp at h
  · simp at h

/-- What the engine takes from an idle unit-call port and a transfer. -/
theorem nextAction_sent {s : State} {bytes : List Byte} {later : List HostInput}
    (hc : s.unitCalls = []) (hp : s.commandPort = .sent bytes :: later) :
    nextAction s = takePacket bytes later s := by
  simp [nextAction, hc, hp]

/-- What the engine does with a reset at the front of its port. -/
theorem nextAction_reset {s : State} {later : List HostInput}
    (hc : s.unitCalls = []) (hp : s.commandPort = .reset :: later) :
    nextAction s = .become (applyReset (s.setPort later)) := by
  simp [nextAction, hc, hp]

/-- The idle engine (R257). -/
theorem nextAction_idle {s : State} (hc : s.unitCalls = []) (hp : s.commandPort = []) : nextAction s = .hold := by
  simp [nextAction, hc, hp]

/-- A unit call comes first. -/
theorem nextAction_call {s : State} {c : UnitCall} {later : List UnitCall} (hc : s.unitCalls = c :: later) :
    nextAction s = takeCall c later s := by
  simp [nextAction, hc]

/-- Everything the engine can do with the bytes at the front of its port, by what they decode to. -/
theorem takePacket_cases (bytes : List Byte) (later : List HostInput) (s : State) :
    (∃ i rest, decodePacket bytes = .instr i rest ∧
      takePacket bytes later s = .run i (s.setPort (remaining rest later))) ∨
    (∃ i, decodePacket bytes = .shortPayload i ∧ answersEarly i s = true ∧
      takePacket bytes later s = .run i (s.setPort later)) ∨
    (∃ opc, decodePacket bytes = .shortWords opc ∧ s.fault ≠ 0 ∧
      takePacket bytes later s = .become (refuse opc (s.setPort later))) ∨
    (takePacket bytes later s = .become (s.setPort later) ∧ bytes = []) ∨
    (∃ opc, decodePacket bytes = .illegalOpcode opc ∧
      takePacket bytes later s = .become (reject faultIllegalOpcode opc (s.setPort later))) ∨
    (∃ opc rest, decodePacket bytes = .reservedField opc rest ∧
      takePacket bytes later s = .become (reject faultReservedField opc (s.setPort (remaining rest later)))) ∨
    takePacket bytes later s = await bytes later s ∨
    (∃ r, takePacket bytes later s = .noMeaning r) := by
  cases hd : decodePacket bytes with
  | instr i rest => exact .inl ⟨i, rest, rfl, by simp [takePacket, hd]⟩
  | shortPayload i =>
    by_cases he : answersEarly i s = true
    · exact .inr (.inl ⟨i, rfl, he, by simp [takePacket, hd, he]⟩)
    · exact .inr (.inr (.inr (.inr (.inr (.inr (.inl (by simp [takePacket, hd, he])))))))
  | shortWords opc =>
    by_cases hf : s.fault = 0
    · exact .inr (.inr (.inr (.inr (.inr (.inr (.inl (by simp [takePacket, hd, hf])))))))
    · exact .inr (.inr (.inl ⟨opc, rfl, hf, by simp only [takePacket, hd, ne_eq, hf, not_false_eq_true, if_true]⟩))
  | noHeader =>
    by_cases hb : bytes = []
    · have hl : bytes.length = 0 := by rw [hb]; rfl
      exact .inr (.inr (.inr (.inl ⟨by simp only [takePacket, hd, hl, if_true], hb⟩)))
    · exact .inr (.inr (.inr (.inr (.inr (.inr (.inl (by simp [takePacket, hd, hb])))))))
  | illegalOpcode opc => exact .inr (.inr (.inr (.inr (.inl ⟨opc, rfl, by simp [takePacket, hd]⟩))))
  | reservedField opc rest =>
    exact .inr (.inr (.inr (.inr (.inr (.inl ⟨opc, rest, rfl, by simp [takePacket, hd]⟩)))))
  | unusedUop u => exact .inr (.inr (.inr (.inr (.inr (.inr (.inr ⟨_, by simp only [takePacket, hd]; rfl⟩))))))
  | badOperands u => exact .inr (.inr (.inr (.inr (.inr (.inr (.inr ⟨_, by simp only [takePacket, hd]; rfl⟩))))))

end Sys2Proof.Machine
end

