-- ==== Sys2Proof/Laws/PerInstr.lean ====
section
/-! SUPPORT. Facts about every instruction as syntax, one lemma a constructor. -/

namespace Sys2Proof.Laws

/-- The shape of an instruction's code: a command is a packet with the words of its format (R83) before its payload; a
unit operation is a call with its own code and as many operand words as its signature has (R91). -/
def CodeShape.Statement (i : Instr) : Prop :=
  match Machine.commandOf i with
  | some o =>
    ∃ (operands : List Word) (payload : List Byte),
      encode i = .packet (packetBytes o operands payload) ∧ 8 * (1 + operands.length) = Machine.headBytes o
  | none => ∃ c : UnitCall, encode i = .call c ∧ Machine.uopOf i = some c.uop ∧ c.words.length = Machine.uopWords c.uop

namespace CodeShape

theorem init (seed1 seed2 : Word) : Statement (.init seed1 seed2) := ⟨[seed1, seed2], [], rfl, rfl⟩

theorem update (len : Word) (payload : List Byte) : Statement (.update len payload) := ⟨[len], payload, rfl, rfl⟩

theorem final : Statement .final := ⟨[], [], rfl, rfl⟩

theorem hash128 (seed1 seed2 len : Word) (message : List Byte) : Statement (.hash128 seed1 seed2 len message) :=
  ⟨[seed1, seed2, len], message, rfl, rfl⟩

theorem hash64 (seed len : Word) (message : List Byte) : Statement (.hash64 seed len message) :=
  ⟨[seed, len], message, rfl, rfl⟩

theorem hash32 (seed32 : BitVec 32) (len : Word) (message : List Byte) : Statement (.hash32 seed32 len message) :=
  ⟨[Machine.zext64 seed32, len], message, rfl, rfl⟩

theorem mix (data state : Words12) : Statement (.mix data state) :=
  ⟨⟨0x1, data.toList ++ state.toList, []⟩, rfl, rfl, by simp [Machine.uopWords]⟩

theorem endPartial (state : Words12) : Statement (.endPartial state) :=
  ⟨⟨0x2, state.toList, []⟩, rfl, rfl, by simp [Machine.uopWords]⟩

theorem endHash (data state : Words12) : Statement (.endHash data state) :=
  ⟨⟨0x3, data.toList ++ state.toList, []⟩, rfl, rfl, by simp [Machine.uopWords]⟩

theorem shortMix (h : Words4) : Statement (.shortMix h) := ⟨⟨0x4, h.toList, []⟩, rfl, rfl, by simp [Machine.uopWords]⟩

theorem shortEnd (h : Words4) : Statement (.shortEnd h) := ⟨⟨0x5, h.toList, []⟩, rfl, rfl, by simp [Machine.uopWords]⟩

theorem short (message : List Byte) (seed1 seed2 : Word) : Statement (.short message seed1 seed2) :=
  ⟨⟨0x6, [seed1, seed2], message⟩, rfl, rfl, rfl⟩

theorem expand (seed1 seed2 : Word) : Statement (.expand seed1 seed2) := ⟨⟨0x7, [seed1, seed2], []⟩, rfl, rfl, rfl⟩

end CodeShape

end Sys2Proof.Laws
end

