-- ==== Sys2Proof/Laws/Step.lean ====
section
/-! SUPPORT. What an instruction, and what a step, can have done when it answers a next state: each said once. -/

namespace Sys2Proof.Machine

/-- A command's own effect, from the state that has taken its packet. -/
inductive CommandEffect (i : Instr) (o : Opcode) (s t : State) : Prop
  | init (seed1 seed2 : Word) (hi : i = .init seed1 seed2) (ho : o = .init) (ht : t = initEffect seed1 seed2 s)
  | update (len : Word) (payload : List Byte) (hi : i = .update len payload) (ho : o = .update)
      (hl : payload.length = len.toNat) (ht : t = updateEffect payload s)
  | pure (results : List Word) (ht : t = finished o results s)

/-- Everything a command that answers a next state can have done. -/
theorem exec_command {i : Instr} {o : Opcode} {s t : State} (hi : commandOf i = some o) (h : exec i s = .next t) :
    (s.fault ≠ 0 ∧ t = refuse (opcodeByte o) s) ∨
    (s.fault = 0 ∧ ∃ c, blocked i s = some c ∧ t = raise c (opcodeByte o) s) ∨
    (s.fault = 0 ∧ blocked i s = none ∧ i.wf = true ∧ CommandEffect i o s t) := by
  have key : ∀ (b : Option (BitVec 8)) (w : Bool) (e : State), command o b w e s = .next t →
      (w = true → t = e → CommandEffect i o s t) →
      (s.fault ≠ 0 ∧ t = refuse (opcodeByte o) s) ∨
      (s.fault = 0 ∧ ∃ c, b = some c ∧ t = raise c (opcodeByte o) s) ∨
      (s.fault = 0 ∧ b = none ∧ w = true ∧ CommandEffect i o s t) := by
    intro b w e h he
    obtain h | h | ⟨h1, h2, h3, h4⟩ := command_next h
    · exact .inl h
    · exact .inr (.inl h)
    · exact .inr (.inr ⟨h1, h2, h3, he h3 h4⟩)
  cases i <;> simp only [commandOf, Option.some.injEq, reduceCtorEq] at hi <;> subst hi
  case init a b => exact key none true _ h fun _ h => .init a b rfl rfl h
  case update len p =>
    exact key (updateFault len s) (payloadOk len p) _ h fun hw h =>
      .update len p rfl rfl (by simpa [payloadOk] using hw) h
  case final => exact key (phaseFault s) true _ h fun _ h => .pure _ h
  case hash128 a b len p => exact key none (payloadOk len p) _ h fun _ h => .pure _ h
  case hash64 a len p => exact key none (payloadOk len p) _ h fun _ h => .pure _ h
  case hash32 a len p => exact key none (payloadOk len p) _ h fun _ h => .pure _ h

/-- A unit operation that answers a next state has only returned a value. -/
theorem exec_unit {i : Instr} {s t : State} (hi : commandOf i = none) (h : exec i s = .next t) :
    ∃ r, t = s.returnUnit r := by
  cases i <;> simp only [commandOf, reduceCtorEq] at hi
  case short m a b =>
    have h : execShort m a b s = .next t := h
    unfold execShort at h
    split at h
    · exact ⟨_, (Host.Outcome.next.inj h).symm⟩
    · simp only [reduceCtorEq] at h
  all_goals exact ⟨_, (Host.Outcome.next.inj h).symm⟩

/-- The state tests do not look at the ports. -/
@[simp] theorem blocked_setPort (i : Instr) (port : List HostInput) (s : State) :
    blocked i (s.setPort port) = blocked i s := by cases i <;> rfl

/-- The codes that the state tests give are 3 and 4 (R248). -/
theorem blocked_eq_some {i : Instr} {c : BitVec 8} {s : State} (h : blocked i s = some c) : c = 3 ∨ c = 4 := by
  have hp : ∀ c, phaseFault s = some c → c = 3 := by
    intro c hc
    unfold phaseFault at hc
    split at hc <;> simp only [Option.some.injEq, reduceCtorEq] at hc
    exact hc.symm
  cases i <;> simp only [blocked, reduceCtorEq] at h
  · unfold updateFault at h
    split at h
    · next hx => exact .inl (hp _ (hx.trans h))
    · unfold overflowFault at h
      split at h <;> simp only [Option.some.injEq, reduceCtorEq] at h
      exact .inr h.symm
  · exact .inl (hp _ h)

/-- A port in which every reset was there before. -/
abbrev NoNewReset (later port : List HostInput) : Prop := .reset ∈ port → .reset ∈ later

/-- Everything a step that answers a next state can have done. -/
inductive StepCase (s t : State) : Prop
  /-- A unit call returned a value. -/
  | unitCall (c : UnitCall) (later : List UnitCall) (r : UnitReturn) (hc : s.unitCalls = c :: later)
      (ht : t = (s.setCalls later).returnUnit r)
  /-- The engine was idle. -/
  | idle (hc : s.unitCalls = []) (hp : s.commandPort = []) (ht : t = s)
  /-- A reset took place, perhaps abandoning an incomplete packet. -/
  | reset (later : List HostInput) (hc : s.unitCalls = [])
      (hp : s.commandPort = .reset :: later ∨ ∃ bytes, s.commandPort = .sent bytes :: .reset :: later)
      (ht : t = applyReset (s.setPort later))
  /-- Only the port changed. -/
  | moved (bytes : List Byte) (later port : List HostInput) (hc : s.unitCalls = [])
      (hp : s.commandPort = .sent bytes :: later) (hn : NoNewReset later port) (ht : t = s.setPort port)
  /-- A packet was refused. -/
  | refused (opc : Byte) (r : List Byte) (rest : List Byte) (later : List HostInput)
      (hc : s.unitCalls = []) (hp : s.commandPort = .sent (opc :: r) :: later) (hs : LeftOver (opc :: r) rest)
      (hf : s.fault ≠ 0) (ht : t = refuse opc (s.setPort (remaining rest later)))
  /-- A fault was recorded. -/
  | raised (opc : Byte) (r : List Byte) (c : BitVec 8) (rest : List Byte) (later : List HostInput)
      (hc : s.unitCalls = []) (hp : s.commandPort = .sent (opc :: r) :: later) (hs : LeftOver (opc :: r) rest)
      (hf : s.fault = 0) (hr : 1 ≤ c.toNat ∧ c.toNat ≤ 4) (ht : t = raise c opc (s.setPort (remaining rest later)))
  /-- The packet at the front of the port was a command, and took effect. -/
  | ran (o : Opcode) (r : List Byte) (i : Instr) (rest : List Byte) (later : List HostInput)
      (hc : s.unitCalls = []) (hp : s.commandPort = .sent (opcodeByte o :: r) :: later)
      (hs : LeftOver (opcodeByte o :: r) rest) (hf : s.fault = 0) (hi : commandOf i = some o) (hw : i.wf = true)
      (hb : blocked i s = none) (hd : decodePacket (opcodeByte o :: r) = .instr i rest)
      (ht : CommandEffect i o (s.setPort (remaining rest later)) t)

theorem remaining_noNewReset (rest : List Byte) (later : List HostInput) :
    NoNewReset later (remaining rest later) := by
  unfold remaining
  split
  · exact id
  · intro h
    simpa only [List.mem_cons, reduceCtorEq, false_or] using h

/-- What a step that ran a command from the port can have done. A command that was run before its payload was all there
was refused or raised a fault. -/
theorem stepCase_of_exec {s t : State} {o : Opcode} {r rest : List Byte} {i : Instr} {later : List HostInput}
    (hc : s.unitCalls = []) (hp : s.commandPort = .sent (opcodeByte o :: r) :: later)
    (hs : LeftOver (opcodeByte o :: r) rest) (hi : commandOf i = some o)
    (hd : decodePacket (opcodeByte o :: r) = .instr i rest ∨ answersEarly i s = true)
    (h : exec i (s.setPort (remaining rest later)) = .next t) : StepCase s t := by
  obtain ⟨hf, ht⟩ | ⟨hf, c, hb, ht⟩ | ⟨hf, hb, hw, ht⟩ := exec_command hi h
  · exact .refused _ r rest later hc hp hs hf ht
  · rw [blocked_setPort] at hb
    have hr : 1 ≤ c.toNat ∧ c.toNat ≤ 4 := by
      obtain rfl | rfl := blocked_eq_some hb <;> decide
    exact .raised _ r c rest later hc hp hs hf hr ht
  · rw [blocked_setPort] at hb
    have hf : s.fault = 0 := hf
    obtain hd | he := hd
    · exact .ran o r i rest later hc hp hs hf hi hw hb hd ht
    · simp [answersEarly, hf, hb] at he

/-- What a step that waited for the rest of a packet can have done. -/
theorem stepCase_of_await {s t : State} {bytes : List Byte} {later : List HostInput}
    (hc : s.unitCalls = []) (hp : s.commandPort = .sent bytes :: later)
    (h : await bytes later s = .become t) : StepCase s t := by
  obtain ⟨_, e⟩ | ⟨more, tail, rfl, e⟩ | ⟨tail, rfl, e⟩ := await_cases bytes later s <;> rw [e] at h
  · simp only [reduceCtorEq] at h
  · refine .moved bytes _ _ hc hp ?_ (Action.become.inj h).symm
    intro h
    simpa using h
  · exact .reset tail hc (.inr ⟨bytes, hp⟩) (Action.become.inj h).symm

/-- A packet that is no command was refused or raised its fault. -/
theorem stepCase_of_reject {s : State} {opc : Byte} {r rest : List Byte} {c : BitVec 8} {later : List HostInput}
    (hc : s.unitCalls = []) (hp : s.commandPort = .sent (opc :: r) :: later) (hs : LeftOver (opc :: r) rest)
    (hr : 1 ≤ c.toNat ∧ c.toNat ≤ 4) : StepCase s (reject c opc (s.setPort (remaining rest later))) := by
  obtain ⟨hf, e⟩ | ⟨hf, e⟩ := reject_cases c opc (s.setPort (remaining rest later)) <;> rw [e]
  · exact .refused opc r rest later hc hp hs hf rfl
  · exact .raised opc r c rest later hc hp hs hf hr rfl

/-- Everything a step that answers a next state can have done. -/
theorem step_cases {s t : State} (h : step s = .next t) : StepCase s t := by
  cases hc : s.unitCalls with
  | cons c later =>
    have hn := nextAction_call hc
    obtain ⟨h1, _⟩ | h1 | ⟨i, u, h1, h⟩ := step_next h <;> rw [hn, takeCall] at h1
    all_goals
      cases hd : decodeCall c <;> rw [hd] at h1 <;> simp only [reduceCtorEq] at h1
    obtain ⟨rfl, rfl⟩ := Action.run.inj h1
    obtain ⟨r, ht⟩ := exec_unit (decodeCall_instr hd).1 h
    exact .unitCall c later r hc ht
  | nil =>
    cases hp : s.commandPort with
    | nil =>
      have hn := nextAction_idle hc hp
      unfold step at h
      rw [hn] at h
      exact .idle hc hp (Host.Outcome.next.inj h).symm
    | cons x later =>
      cases x with
      | reset =>
        have hn := nextAction_reset hc hp
        unfold step at h
        rw [hn] at h
        exact .reset later hc (.inl hp) (Host.Outcome.next.inj h).symm
      | sent bytes =>
        have hn := nextAction_sent hc hp
        have ha : ∀ u, takePacket bytes later s = await bytes later s → nextAction s = .become u → u = t →
            StepCase s t := by
          intro u h1 h2 h3
          rw [hn, h1, h3] at h2
          exact stepCase_of_await hc hp h2
        have hb : ∀ u, takePacket bytes later s = .become u → u = t := by
          intro u hu
          unfold step at h
          rw [hn, hu] at h
          exact Host.Outcome.next.inj h
        have hx : ∀ i u, takePacket bytes later s = .run i u → exec i u = .next t := by
          intro i u hu
          unfold step at h
          rw [hn, hu] at h
          exact h
        have hw : takePacket bytes later s = await bytes later s → StepCase s t := by
          intro e
          obtain ⟨_, e1⟩ | ⟨more, tail, _, e1⟩ | ⟨tail, _, e1⟩ := await_cases bytes later s
          · unfold step at h
            rw [hn, e, e1] at h
            simp only [reduceCtorEq] at h
          · exact ha _ e (by rw [hn, e, e1]) (hb _ (by rw [e, e1]))
          · exact ha _ e (by rw [hn, e, e1]) (hb _ (by rw [e, e1]))
        cases decodePacket_cases bytes with
        | noHeader hl hd =>
          by_cases hz : bytes.length = 0
          · exact .moved bytes later later hc hp id (hb _ (by simp only [takePacket, hd, hz, if_true])).symm
          · exact hw (by simp only [takePacket, hd, hz, if_false])
        | illegalOpcode opc r hbs hr ho hd =>
          rw [← hb _ (by simp only [takePacket, hd]; rfl)]
          exact stepCase_of_reject (rest := []) hc (hbs ▸ hp) (leftOver_nil hr) (by decide)
        | shortWords o r hbs hr hl hd =>
          by_cases hf : s.fault = 0
          · exact hw (by simp [takePacket, hd, hf])
          · exact .refused _ r [] later hc (hbs ▸ hp) (leftOver_nil hr) hf
              (hb _ (by simp only [takePacket, hd, ne_eq, hf, not_false_eq_true, if_true]; rfl)).symm
        | reservedField o r hbs hr hs hd =>
          rw [← hb _ (by simp only [takePacket, hd]; rfl)]
          exact stepCase_of_reject hc (hbs ▸ hp) (hbs ▸ hs) (by decide)
        | shortPayload o r i hbs hr hi hd =>
          by_cases he : answersEarly i s = true
          · exact stepCase_of_exec (rest := []) hc (hbs ▸ hp) (leftOver_nil hr) hi (.inr he)
              (hx _ _ (by simp only [takePacket, hd, he, if_true]; rfl))
          · exact hw (by simp [takePacket, hd, he])
        | instr o r i rest hbs hr hs hi hwf hd =>
          exact stepCase_of_exec hc (hbs ▸ hp) (hbs ▸ hs) hi (.inl (hbs ▸ hd)) (hx _ _ (by simp only [takePacket, hd]))

end Sys2Proof.Machine
end

