-- ==== Sys2Proof/Laws/Words.lean ====
section
/-! SUPPORT. Reading an array of words after one word was written. -/

namespace Sys2Proof

variable {n : Nat} (v : Vector Word n) (i j : Fin n) (w : Word)

/-- Read after write. -/
theorem put_getElem : (put v i w)[j] = if i = j then w else v[j] := by
  simp only [put, Fin.getElem_fin, Vector.getElem_set, Fin.ext_iff]

/-- Read after write, at a plain index: the form simp brings every index to. -/
@[simp] theorem put_getElem_nat (k : Nat) (h : k < n) : (put v i w)[k] = if i.1 = k then w else v[k] := by
  simp only [put, Vector.getElem_set]

theorem put_getElem_self : (put v i w)[i] = w := by simp

theorem put_getElem_of_ne (h : i ≠ j) : (put v i w)[j] = v[j] := by rw [put_getElem, if_neg h]

/-- Two arrays are equal when they agree at every index. -/
theorem words_ext {u v : Vector Word n} (h : ∀ i : Fin n, u[i] = v[i]) : u = v :=
  Vector.ext fun i hi => h ⟨i, hi⟩

/-- Writing back what was there changes nothing. -/
@[simp] theorem put_same : put v i v[i] = v :=
  words_ext fun j => by
    rw [put_getElem]
    split
    · next h => rw [h]
    · rfl

end Sys2Proof
end

