-- ==== Sys2Proof/Tests/Slice0.lean ====
section
/-! SUPPORT. Tests: words and packets written out from spec/30_encoding.md, the vectors of spec/95_test_vectors.md, and
for each statement with hypotheses a witness that meets them. -/

namespace Sys2Proof.Tests

open Machine

-- One theorem at a time: the kernel evaluates long terms here, and a thread for each would need much memory.
set_option Elab.async false

/-! ### States and operands -/

/-- A Ready context straight after INIT 0, 0. -/
def seeded : State := (State.reset.setContext (expand kp 0 0) State.reset.buf 0 0).setPhase .ready

/-- The same context with every byte of BUF, all of it scratch, set to `b`. -/
def scratched (b : Byte) : State := seeded.setContext seeded.words (Vector.replicate 192 b) 0 0

/-- The counter of vector F12: one byte more overflows it. -/
def full : State := (State.reset.setContext (expand kp 0 0) State.reset.buf 0xFFFFFFFFFFFFFFFF 63).setPhase .ready

/-- A state with fault 3 recorded. -/
def faulted : State := State.reset.setFault 3

/-- The words 1, 2, 3, … -/
def counting (n : Nat) : Vector Word n := Vector.ofFn fun i : Fin n => BitVec.ofNat 64 (i.1 + 1)

/-- A state after `exec` or `step`, where there is one. -/
def after (o : Host.Outcome State Fault Refusal) : Option State :=
  match o with
  | .next s => some s
  | .fault _ => none
  | .refused _ => none

/-- The responses of an outcome. -/
def responses (o : Host.Outcome State Fault Refusal) : Option (List Response) := (after o).map (·.responsePort)

/-- What unit calls have returned. -/
def returns (o : Host.Outcome State Fault Refusal) : Option (List UnitReturn) := (after o).map (·.unitReturns)

/-- The bytes of the responses to one transfer, from reset (the form of section 13 of the vectors). -/
def reply (bytes : List Byte) (s : State) : Option (List Byte) :=
  (responses (step (s.setPort [.sent bytes]))).map (·.flatMap Response.bytes)

/-! ### Well-formedness: an ill-formed term for each check (R71, R165) -/

theorem test_wf_refuses_update_without_its_bytes : Instr.wf (.update 3 [1, 2]) = false := by decide
theorem test_wf_refuses_hash128_with_a_byte_more : Instr.wf (.hash128 0 0 1 [1, 2]) = false := by decide
theorem test_wf_refuses_hash64_without_its_byte : Instr.wf (.hash64 0 1 []) = false := by decide
theorem test_wf_refuses_hash32_with_a_byte_more : Instr.wf (.hash32 0 0 [1]) = false := by decide
theorem test_wf_refuses_short_above_192 : Instr.wf (.short (fill 193) 0 0) = false := by decide +kernel
theorem test_wf_takes_short_of_192 : Instr.wf (.short (fill 192) 0 0) = true := by decide +kernel

/-! ### Decoding of words written out from R81 to R85 and R91 -/

theorem test_decode_init :
    decode (.packet [1, 0, 0, 0, 0, 0, 0, 0, 1, 2, 3, 4, 5, 6, 7, 8, 0xef, 0xcd, 0xab, 0x89, 0x67, 0x45, 0x23, 0x01]) =
      .instr (.init 0x0807060504030201 0x0123456789ABCDEF) [] := by decide +kernel
theorem test_decode_update :
    decode (.packet [2, 0, 0, 0, 0, 0, 0, 0, 3, 0, 0, 0, 0, 0, 0, 0, 0x61, 0x62, 0x63]) =
      .instr (.update 3 [0x61, 0x62, 0x63]) [] := by decide +kernel
theorem test_decode_final_leaves_what_follows :
    decode (.packet [3, 0, 0, 0, 0, 0, 0, 0, 3]) = .instr .final [3] := by decide +kernel
theorem test_decode_hash128 :
    decode (.packet [0x10, 0, 0, 0, 0, 0, 0, 0, 1, 0, 0, 0, 0, 0, 0, 0, 0, 0, 0, 0, 0, 0, 0, 0x80,
      2, 0, 0, 0, 0, 0, 0, 0, 0xaa, 0xbb]) = .instr (.hash128 1 0x8000000000000000 2 [0xaa, 0xbb]) [] := by decide +kernel
theorem test_decode_hash64 :
    decode (.packet [0x11, 0, 0, 0, 0, 0, 0, 0, 5, 0, 0, 0, 0, 0, 0, 0, 1, 0, 0, 0, 0, 0, 0, 0, 0xcc]) =
      .instr (.hash64 5 1 [0xcc]) [] := by decide +kernel
theorem test_decode_hash32 :
    decode (.packet [0x12, 0, 0, 0, 0, 0, 0, 0, 0xff, 0xff, 0xff, 0x7f, 0, 0, 0, 0, 0, 0, 0, 0, 0, 0, 0, 0]) =
      .instr (.hash32 0x7FFFFFFF 0 []) [] := by decide +kernel
theorem test_decode_mix :
    decode (.call ⟨0x1, [1, 2, 3, 4, 5, 6, 7, 8, 9, 10, 11, 12, 21, 22, 23, 24, 25, 26, 27, 28, 29, 30, 31, 32], []⟩) =
      .instr (.mix #v[1, 2, 3, 4, 5, 6, 7, 8, 9, 10, 11, 12] #v[21, 22, 23, 24, 25, 26, 27, 28, 29, 30, 31, 32]) [] := by
  decide +kernel
theorem test_decode_endPartial :
    decode (.call ⟨0x2, [1, 2, 3, 4, 5, 6, 7, 8, 9, 10, 11, 12], []⟩) = .instr (.endPartial (counting 12)) [] := by
  decide +kernel
theorem test_decode_end :
    decode (.call ⟨0x3, [1, 2, 3, 4, 5, 6, 7, 8, 9, 10, 11, 12, 0, 0, 0, 0, 0, 0, 0, 0, 0, 0, 0, 9], []⟩) =
      .instr (.endHash (counting 12) #v[0, 0, 0, 0, 0, 0, 0, 0, 0, 0, 0, 9]) [] := by decide +kernel
theorem test_decode_shortMix : decode (.call ⟨0x4, [1, 2, 3, 4], []⟩) = .instr (.shortMix #v[1, 2, 3, 4]) [] := by decide +kernel
theorem test_decode_shortEnd : decode (.call ⟨0x5, [1, 2, 3, 4], []⟩) = .instr (.shortEnd #v[1, 2, 3, 4]) [] := by decide +kernel
theorem test_decode_short : decode (.call ⟨0x6, [7, 8], [1, 2]⟩) = .instr (.short [1, 2] 7 8) [] := by decide +kernel
theorem test_decode_expand : decode (.call ⟨0x7, [7, 8], []⟩) = .instr (.expand 7 8) [] := by decide +kernel
theorem test_decode_refuses_unused_code : decode (.call ⟨0x8, [], []⟩) = .unusedUop 0x8 := by decide +kernel
theorem test_decode_refuses_missing_operand : decode (.call ⟨0x4, [1, 2, 3], []⟩) = .badOperands 0x4 := by decide +kernel

/-- Every row of the opcode table runs as the first instruction after reset (log 14). -/
theorem test_table_words_run :
    ([(64, 0x01), (64, 0x02), (64, 0x03), (64, 0x10), (64, 0x11), (64, 0x12), (8, 0x1), (8, 0x2), (8, 0x3), (8, 0x4),
      (8, 0x5), (8, 0x6), (8, 0x7)] : List (Nat × Nat)).all
      (fun p => (after (step (State.reset.withFetchWord p.1 p.2))).isSome && (decodeTableWord p.1 p.2).isSome) = true := by
  decide +kernel

/-! ### The vectors of spec/95_test_vectors.md -/

/-- X2 and R190. -/
theorem test_init_X2 : (after (exec (.init 1 2) State.reset)).map (·.words) =
    some #v[0x0000000000000001, 0x0000000000000002, 0x92088F0A920886F1, 0x95F224C995F1DCCB, 0xB0320D748036055A,
      0x4A2A08031A29C78C, 0x0051101BF0521535, 0x47DE5FD5E7DA1F99, 0x90EE57F6C7D89F87, 0x7C777BD42A0C40AF,
      0xEDD3DED88E2D0E95, 0xE85A665CF84E8E5D] := by decide +kernel

/-- M5: the first block of every (0, 0) stream over FILL. -/
theorem test_update_M5 : (after (exec (.update 96 (fill 96)) seeded)).map (fun s => (s.words, s.remainder, s.length)) =
    some (#v[0x3DA603DBCF903F22, 0xC6771F6E76D0F0B0, 0xD6E1EC6213EEE549, 0x36DB0A94C48AAFD0, 0xDD8DEBDFD5570274,
      0x5E81E087C8BB0749, 0xC56802E748E60D2C, 0xAB5F3A0E4799A89F, 0xCF1C401CE0061F50, 0x7225092B7F9065E2,
      0x25D65E76BEDDA82D, 0x0D6996DD482D5E0C], 0, 96) := by decide +kernel

/-- T1. -/
theorem test_final_T1 :
    responses (exec .final seeded) = some [⟨0, 0x03, [0x4459E054E83558D0, 0xDAA247B5A5DD72D1]⟩] := by decide +kernel

/-- S1. -/
theorem test_hash128_S1 :
    responses (exec (.hash128 0 0 0 []) State.reset) = some [⟨0, 0x10, [0x232706FC6BF50919, 0x8B72EE65B4E851C7]⟩] := by
  decide +kernel

/-- H12, the first length of the long path. -/
theorem test_hash128_H12 : responses (exec (.hash128 0 0 193 (fill 193)) State.reset) =
    some [⟨0, 0x10, [0xAE82A4214BC1D4D0, 0x0A7F0B4A923D0E9B]⟩] := by decide +kernel

/-- H19. -/
theorem test_hash64_H19 :
    responses (exec (.hash64 5 10 (fill 10)) State.reset) = some [⟨0, 0x11, [0xACA820D2E679229D]⟩] := by decide +kernel

/-- H23. -/
theorem test_hash32_H23 :
    responses (exec (.hash32 7 3 [0x61, 0x62, 0x63]) State.reset) = some [⟨0, 0x12, [0xFB3478CE]⟩] := by decide +kernel

/-- M2. -/
theorem test_mix_M2 : returns (exec (.mix #v[1, 0, 0, 0, 0, 0, 0, 0, 0, 0, 0, 0] (Vector.replicate 12 0)) State.reset) =
    some [.state #v[0x0104008120082809, 0x028400813124281D, 0x0000000000000801, 0x0000000080000801, 0x0000000010000802,
      0x0000000090001002, 0x0004008090001003, 0x02000000A1001814, 0x0104008120082009, 0x028400813124281C,
      0x23280085C1C8411E, 0x0605408000002840]] := by decide +kernel

/-- P3. -/
theorem test_endPartial_P3 : returns (exec (.endPartial (counting 12)) State.reset) =
    some [.state #v[0x65A08AB74275CE8A, 0x8E6B02C228ADA771, 0x000020000006800F, 0x0000202800068009, 0x0000202801E68012,
      0x01A0226801EE801A, 0x01AD228401EEC063, 0x022DC28B9BEF2869, 0x067AC2C96BF18896, 0x822ADD09D73A2998,
      0x8E6B22C228ADA77B, 0xC6226019EB0B25AF]] := by decide +kernel

/-- E1. -/
theorem test_end_E1 :
    returns (exec (.endHash (Vector.ofFn fun i : Fin 12 => BitVec.ofNat 64 (0x100 * (i.1 + 1))) (counting 12)) State.reset) =
      some [.pair 0xD7F529AB09E5F9EB 0x26912E974396CB16] := by decide +kernel

/-- SM3. -/
theorem test_shortMix_SM3 : returns (exec (.shortMix (counting 4)) State.reset) =
    some [.four #v[0x2BF7518BD9F16648, 0x9A082A6452E0D6F5, 0x8811513FD3EDB160, 0x03826F115D34E2BD]] := by decide +kernel

/-- SE3. -/
theorem test_shortEnd_SE3 : returns (exec (.shortEnd (counting 4)) State.reset) =
    some [.four #v[0xD05BC6CE4C6B2EFE, 0x8616FFE259AF1463, 0xCC8D19644D5EFEDD, 0x6491D728A1B49620]] := by decide +kernel

/-- S8. -/
theorem test_short_S8 :
    returns (exec (.short (fill 17) 0 0) State.reset) = some [.pair 0x9FE34F5873AD82A0 0x5CEE095C73F1F678] := by
  decide +kernel

/-- S13. -/
theorem test_short_S13 :
    returns (exec (.short (fill 33) 0 0) State.reset) = some [.pair 0x243848E873CD8068 0x17128EBDBFC7B4BE] := by
  decide +kernel

/-- X2. -/
theorem test_expand_X2 : (returns (exec (.expand 1 2) State.reset)).map (·.length) = some 1 ∧
    (expand kp 1 2)[11] = 0xE85A665CF84E8E5D := by decide +kernel

/-- F2: an unassigned opcode. -/
theorem test_fault_F2 : reply [4, 0, 0, 0, 0, 0, 0, 0] State.reset = some [1, 4, 0, 0, 0, 0, 0, 0] := by decide +kernel

/-- F4: a reserved bit comes before the phase. -/
theorem test_fault_F4 : reply [3, 1, 0, 0, 0, 0, 0, 0] State.reset = some [2, 3, 0, 0, 0, 0, 0, 0] := by decide +kernel

/-- F5: a HASH32 seed above 32 bits. -/
theorem test_fault_F5 : reply [0x12, 0, 0, 0, 0, 0, 0, 0, 0, 0, 0, 0, 1, 0, 0, 0, 0, 0, 0, 0, 0, 0, 0, 0] State.reset =
    some [2, 0x12, 0, 0, 0, 0, 0, 0] := by decide +kernel

/-- F7: UPDATE "abc" in UNINIT. -/
theorem test_fault_F7 : reply [2, 0, 0, 0, 0, 0, 0, 0, 3, 0, 0, 0, 0, 0, 0, 0, 0x61, 0x62, 0x63] State.reset =
    some [3, 2, 0, 0, 0, 0, 0, 0] := by decide +kernel

/-- F9: INIT after a fault. -/
theorem test_refusal_F9 :
    reply [1, 0, 0, 0, 0, 0, 0, 0, 0, 0, 0, 0, 0, 0, 0, 0, 0, 0, 0, 0, 0, 0, 0, 0] faulted =
      some [0x83, 1, 0, 0, 0, 0, 0, 0] := by decide +kernel

/-- F12. -/
theorem test_overflow_F12 : responses (exec (.update 1 [0]) full) = some [⟨4, 2, []⟩] ∧
    responses (exec (.update 0 []) full) = some [⟨0, 2, []⟩] := by decide +kernel

/-! ### Witnesses: for each statement with hypotheses, states and operands that meet them -/

/-- RotationMovesEveryBitLeft, at both ends. -/
theorem witness_rotation : 1 ≤ 1 ∧ 1 ≤ 63 ∧ 63 ≤ 63 ∧ kp.wf = true := by decide

/-- WordArithmeticWrapsAndTruncates, at both ends. -/
theorem witness_shifts : (0 ≤ 63 ∧ 63 ≤ 63) ∧ 192 ≤ 192 := by decide

/-- DecodedWordIsTheLittleEndianSum, EncodeAndDecodeAreInverse. -/
theorem witness_le64 : (fill 8).length = 8 ∧ le64 (fill 8) = le64 (fill 8) := by decide +kernel

/-- ShortDecodePadsWithZeros, at both ends. -/
theorem witness_le64P : ([] : List Byte).length ≤ 8 ∧ (fill 8).length ≤ 8 := by decide

/-- TaggedBlockKeepsDataAndTag, at both ends. -/
theorem witness_padTag : ([] : List Byte).length ≤ 95 ∧ (fill 95).length ≤ 95 := by decide +kernel

/-- MixIsABijection, EndPartialIsABijection, ShortRoundsAreBijections. -/
theorem witness_bijections : kp.wf = true := by decide

/-- ShortBelowSixteenRunsOneRound, at both ends. -/
theorem witness_short_below_16 : (1 ≤ (fill 1).length ∧ (fill 1).length ≤ 15) ∧
    1 ≤ (fill 15).length ∧ (fill 15).length ≤ 15 := by decide +kernel

/-- ShortBelowThirtyTwoRunsTwoRounds, at both ends. -/
theorem witness_short_below_32 : (16 ≤ (fill 16).length ∧ (fill 16).length ≤ 31) ∧
    16 ≤ (fill 31).length ∧ (fill 31).length ≤ 31 := by decide +kernel

/-- ShortFromThirtyTwoEndsInEnd, at both ends. -/
theorem witness_short_from_32 : (32 ≤ (fill 32).length ∧ (fill 32).length ≤ 192) ∧
    32 ≤ (fill 192).length ∧ (fill 192).length ≤ 192 := by decide +kernel

/-- ShortAboveItsDomainIsRefused, at its first length. -/
theorem witness_short_above_192 : 192 < (fill 193).length := by decide +kernel

/-- InitSeedsAReadyContext, in either phase. -/
theorem witness_init : State.reset.fault = 0 ∧ seeded.fault = 0 := by decide

/-- UpdateMixesEveryCompletedBlock, IncrementalFormOfUpdateAgrees. -/
theorem witness_update : seeded.fault = 0 ∧ seeded.phase = .ready ∧ seeded.remainder.toNat < 96 ∧
    (fill 97).length = (97 : Word).toNat ∧ 0 < (97 : Word).toNat ∧
    seeded.length.toNat + (97 : Word).toNat < 2 ^ 64 := by decide +kernel

/-- UpdateOfNothingChangesNothing, both clauses. -/
theorem witness_update_of_nothing : State.reset.fault = 0 ∧ State.reset.phase = .uninit ∧ seeded.phase = .ready := by decide

/-- FinalHashesTheTailAndChangesNothing, DeletingFinalChangesNothingLater. -/
theorem witness_final : seeded.fault = 0 ∧ seeded.phase = .ready ∧ seeded.remainder.toNat < 96 ∧
    exec .final seeded = .next (finalEffect seeded) ∧ execAll [.final] seeded = .next (finalEffect seeded) :=
  ⟨rfl, rfl, by decide, rfl, rfl⟩

/-- StreamIsAFunctionOfItsConcatenation, ChunkingNeverChangesTheHash. -/
theorem witness_stream : State.reset.fault = 0 ∧ seeded.fault = 0 ∧
    ([fill 2, [], [3]] : List (List Byte)).flatten = [[1], [2, 3]].flatten ∧
    ([fill 2, [], [3]] : List (List Byte)).flatten.length < 2 ^ 64 := by decide +kernel

/-- LongOneShotEqualsEveryChunking, at its first length. -/
theorem witness_long : State.reset.fault = 0 ∧ 193 ≤ ([fill 100, fill 93] : List (List Byte)).flatten.length ∧
    ([fill 100, fill 93] : List (List Byte)).flatten.length = (193 : Word).toNat := by decide +kernel

/-- HashPairDispatchesAtOneHundredNinetyTwo on both sides, HashSixtyFourIsTheFirstWord, HashThirtyTwoIsTheLowHalf. -/
theorem witness_hash : State.reset.fault = 0 ∧ (fill 192).length = (192 : Word).toNat ∧ (192 : Word).toNat ≤ 192 ∧
    (fill 193).length = (193 : Word).toNat ∧ 193 ≤ (193 : Word).toNat := by decide +kernel

/-- UninitialisedContextFaults. -/
theorem witness_uninitialised : State.reset.fault = 0 ∧ State.reset.phase = .uninit := by decide

/-- LengthOverflowFaults, at the first overflowing total. -/
theorem witness_overflow : full.fault = 0 ∧ full.phase = .ready ∧ 0 < (1 : Word).toNat ∧
    2 ^ 64 ≤ full.length.toNat + (1 : Word).toNat := by decide +kernel

/-- EveryCommandIsRefusedAfterAFault. -/
theorem witness_refused : faulted.fault ≠ 0 ∧ commandOf (.init 0 0) = some .init := by decide

/-- FaultIsLeftOnlyByReset: a refused packet, and no reset on the port. -/
theorem witness_faulted_step : ∃ s t : State, s.fault ≠ 0 ∧ s.NoReset ∧ step s = .next t ∧ t ≠ s :=
  ⟨faulted.setPort [.sent (3 :: zeros 7)], refuse 3 faulted, by decide, by decide, rfl, fun h =>
    absurd (congrArg State.commandPort h) (by decide)⟩

/-- FaultsArePrecise: a step that records fault 3 and leaves what follows the packet. -/
theorem witness_faulting_step : ∃ s t : State, s.fault = 0 ∧ step s = .next t ∧ t.fault ≠ 0 ∧
    t.commandPort = remaining [1] [.reset] :=
  ⟨State.reset.setPort [.sent [3, 0, 0, 0, 0, 0, 0, 0, 1], .reset],
    raise 3 3 (State.reset.setPort [.sent [1], .reset]), by decide, rfl, by decide, rfl⟩

/-- IllegalOpcodeFaults, at the boundaries of the illegal ranges. -/
theorem witness_illegal_opcode : State.reset.fault = 0 ∧ State.reset.unitCalls = [] ∧
    (State.reset.setPort [.sent (0x04 :: zeros 7)]).commandPort = [.sent (0x04 :: zeros 7)] ∧ 7 ≤ (zeros 7).length ∧
    (opcodeOf 0x04 = none ∧ opcodeOf 0x00 = none ∧ opcodeOf 0x13 = none ∧ opcodeOf 0xFF = none) ∧
    [Opcode.init, .update, .final, .hash128, .hash64, .hash32].all (fun o => opcodeByte o ≠ 0x04) = true := by
  decide +kernel

/-- ReservedFieldFaultsBeforeThePhase: the two clauses, at the ends of their ranges: the last
reserved byte, and the two ends of the seed's upper half. -/
theorem witness_reserved_field :
    (seeded.fault = 0 ∧ seeded.unitCalls = []) ∧
    ([opcodeByte .final, 0, 0, 0, 0, 0, 0, 1] : List Byte).length =
        headBytes .final + announced .final [opcodeByte .final, 0, 0, 0, 0, 0, 0, 1] ∧
    ([0, 0, 0, 0, 0, 0, 1] : List Byte).getD 6 0 ≠ 0 ∧
    (opcodeByte .hash32 :: (zeros 11 ++ [1] ++ zeros 11)).length =
        headBytes .hash32 + announced .hash32 (opcodeByte .hash32 :: (zeros 11 ++ [1] ++ zeros 11)) ∧
    (zeros 11 ++ [1] ++ zeros 11).getD 11 0 ≠ 0 ∧ (zeros 14 ++ [1] ++ zeros 8).getD 14 0 ≠ 0 ∧
    (opcodeByte .hash32 :: (zeros 14 ++ [1] ++ zeros 8)).length =
        headBytes .hash32 + announced .hash32 (opcodeByte .hash32 :: (zeros 14 ++ [1] ++ zeros 8)) := by decide +kernel

/-- ResetClearsFaultAndPhase: a reset at the front, and behind one byte and behind seven bytes of a header. -/
theorem witness_reset : faulted.unitCalls = [] ∧ (faulted.setPort [.reset]).commandPort = [.reset] ∧
    (0 < (zeros 1).length ∧ (zeros 1).length < 8) ∧ (0 < (zeros 7).length ∧ (zeros 7).length < 8) ∧
    (faulted.setPort [.sent (zeros 7), .reset]).commandPort = [.sent (zeros 7), .reset] := by decide

/-- OnlyResetLeavesReady, first clause: a reset behind part of a header leaves READY. -/
theorem witness_leaves_ready : ∃ s t : State, step s = .next t ∧ s.phase = .ready ∧ t.phase = .uninit :=
  ⟨seeded.setPort [.sent [3], .reset], applyReset seeded, rfl, rfl, rfl⟩

/-- OnlyResetLeavesReady, second clause: INIT enters READY, with a reset waiting behind it. -/
theorem witness_enters_ready : ∃ s t : State, step s = .next t ∧ s.phase = .uninit ∧ t.phase = .ready :=
  ⟨State.reset.setPort [.sent (1 :: zeros 23), .reset], initEffect 0 0 (State.reset.setPort [.reset]), rfl, rfl, rfl⟩

/-- StepRunsTheDecodedPacket, both clauses. -/
theorem witness_packet : State.reset.unitCalls = [] ∧ decode (.packet (3 :: zeros 7)) = .instr .final [] ∧
    decode (.packet (3 :: zeros 7 ++ [2])) = .instr .final [2] := by decide +kernel

/-- StepRunsTheUnitCall. -/
theorem witness_unit_call : (State.reset.setCalls [⟨0x7, [1, 2], []⟩]).unitCalls = [⟨0x7, [1, 2], []⟩] ∧
    decode (.call ⟨0x7, [1, 2], []⟩) = .instr (.expand 1 2) [] := by decide +kernel

/-- IncompletePacketHasNoStep, for each clause. -/
theorem witness_incomplete_packet : Instr.wf (.hash64 0 1 [9]) = true ∧
    encode (.hash64 0 1 [9]) = .packet ((0x11 :: zeros 15) ++ (1 :: zeros 7 ++ [9])) ∧
    blocked (.hash64 0 1 [9]) State.reset = none ∧ State.reset.fault = 0 ∧ State.reset.unitCalls = [] ∧
    (State.reset.setPort [.sent (0x11 :: zeros 15)]).commandPort = [.sent (0x11 :: zeros 15)] ∧
    (State.reset.setPort [.sent (0x11 :: zeros 15), .sent [1]]).commandPort = [.sent (0x11 :: zeros 15), .sent [1]] ∧
    (State.reset.setPort [.sent (0x11 :: zeros 15), .reset]).commandPort = [.sent (0x11 :: zeros 15), .reset] := by
  decide +kernel

/-- FaultsDoNotWaitForThePayload, fault 2: UPDATE of one byte with its last reserved byte set, and HASH32 of one byte with
the lowest and the highest bit of its seed's upper half set, each with no byte of the payload there. -/
theorem witness_early_fault_2 :
    ([2, 0, 0, 0, 0, 0, 0, 1] ++ (1 :: zeros 7) : List Byte).head? = some (opcodeByte .update) ∧
    headBytes .update ≤ ([2, 0, 0, 0, 0, 0, 0, 1] ++ (1 :: zeros 7) : List Byte).length ∧
    ([2, 0, 0, 0, 0, 0, 0, 1] ++ (1 :: zeros 7) : List Byte).length <
      headBytes .update + announced .update ([2, 0, 0, 0, 0, 0, 0, 1] ++ (1 :: zeros 7)) ∧
    ([2, 0, 0, 0, 0, 0, 0, 1] ++ (1 :: zeros 7) : List Byte).getD 7 0 ≠ 0 ∧
    (0x12 :: zeros 11 ++ [1] ++ zeros 2 ++ [0x80] ++ [1] ++ zeros 7 : List Byte).head? = some (opcodeByte .hash32) ∧
    headBytes .hash32 ≤ (0x12 :: zeros 11 ++ [1] ++ zeros 2 ++ [0x80] ++ [1] ++ zeros 7 : List Byte).length ∧
    (0x12 :: zeros 11 ++ [1] ++ zeros 2 ++ [0x80] ++ [1] ++ zeros 7 : List Byte).length <
      headBytes .hash32 + announced .hash32 (0x12 :: zeros 11 ++ [1] ++ zeros 2 ++ [0x80] ++ [1] ++ zeros 7) ∧
    (0x12 :: zeros 11 ++ [1] ++ zeros 2 ++ [0x80] ++ [1] ++ zeros 7 : List Byte).getD 12 0 ≠ 0 ∧
    (0x12 :: zeros 11 ++ [1] ++ zeros 2 ++ [0x80] ++ [1] ++ zeros 7 : List Byte).getD 15 0 ≠ 0 := by decide +kernel

/-- FaultsDoNotWaitForThePayload, faults 3 and 4: no byte of a payload of one byte is there. -/
theorem witness_early_fault : (State.reset.fault = 0 ∧ State.reset.phase = .uninit ∧ State.reset.unitCalls = []) ∧
    (full.fault = 0 ∧ full.phase = .ready ∧ full.unitCalls = [] ∧
      2 ^ 64 ≤ full.length.toNat + (1 : Word).toNat) ∧ ([] : List Byte).length < (1 : Word).toNat := by decide +kernel

/-- R90: fault 4 with the payload still missing, from a state like that of vector F12. -/
theorem test_early_overflow :
    reply ([2, 0, 0, 0, 0, 0, 0, 0] ++ (1 :: zeros 7)) full = some [4, 2, 0, 0, 0, 0, 0, 0] := by decide +kernel

/-- IllFormedCommandHasNoStep. -/
theorem witness_ill_formed : commandOf (.update 2 [1]) = some .update ∧ Instr.wf (.update 2 [1]) = false ∧
    seeded.fault = 0 ∧ blocked (.update 2 [1]) seeded = none := by decide +kernel

/-- UnusedUnitCodesAreRefused, at the ends of both ranges. -/
theorem witness_unused_codes : (0x0 : BitVec 4) = 0 ∧ 8 ≤ (0x8 : BitVec 4).toNat ∧ 8 ≤ (0xF : BitVec 4).toNat := by decide

/-- OneResponseEchoesTheOpcode: a packet that is answered. -/
theorem witness_response : ∃ (bytes : List Byte) (s t : State), s.unitCalls = [] ∧ s.commandPort = [.sent bytes] ∧
    step s = .next t ∧ t.responsePort ≠ s.responsePort :=
  ⟨3 :: zeros 7, State.reset.setPort [.sent (3 :: zeros 7)], raise 3 3 State.reset, rfl, rfl, rfl, by decide⟩

/-- UnitCallsTouchNoRegister: both kinds of step. -/
theorem witness_unit_step : step State.reset = .next State.reset ∧ State.reset.unitCalls = [] ∧
    (State.reset.setCalls [⟨0x7, [1, 2], []⟩]).unitCalls ≠ [] ∧
    step (State.reset.setCalls [⟨0x7, [1, 2], []⟩]) = .next (State.reset.returnUnit (.state (expand kp 1 2))) :=
  ⟨rfl, rfl, by decide, rfl⟩

/-- UnspecifiedStateIsNeverObserved: two alike states that differ in scratch bytes. -/
theorem witness_alike : State.Alike (scratched 0) (scratched 1) ∧ (scratched 0).buf ≠ (scratched 1).buf :=
  ⟨⟨rfl, rfl, rfl, rfl, ⟨rfl, rfl, rfl⟩, fun _ => ⟨rfl, rfl, rfl, by decide +kernel⟩⟩, by decide +kernel⟩

/-- StepKeepsTheInvariant: a step that runs FINAL. -/
theorem witness_invariant : (seeded.setPort [.sent (3 :: zeros 7)]).Inv ∧
    step (seeded.setPort [.sent (3 :: zeros 7)]) = .next (finalEffect seeded) := ⟨by decide +kernel, rfl⟩

/-- DecodeOfEncodeIsTheInstruction. -/
theorem witness_well_formed : Instr.wf (.update 3 (fill 3)) = true ∧
    encode (.update 3 (fill 3)) = .packet [2, 0, 0, 0, 0, 0, 0, 0, 3, 0, 0, 0, 0, 0, 0, 0, 1, 2, 3] := by decide +kernel

/-- DecodedPacketsAreTheirEncodings. -/
theorem witness_decodes : decode (.packet [3, 0, 0, 0, 0, 0, 0, 0, 5]) = .instr .final [5] := by decide +kernel

/-- PacketSizesFollowTheFormats. -/
theorem witness_packet_sizes : (fill 3).length = (3 : Word).toNat := by decide +kernel

end Sys2Proof.Tests
end

/-! PROOFS. What the engine does with a packet that decodes (spec R23, R72, R86). -/

namespace Sys2Proof.Machine

/-- An instruction that the decoder of the command port answers with is well formed. -/
theorem wf_of_decodePacket_instr {bytes rest : List Byte} {i : Instr} (h : decodePacket bytes = .instr i rest) :
    i.wf = true := by
  cases decodePacket_cases bytes
  case instr o r j rest' hb hr hs hc hw hd =>
    obtain ⟨rfl, _⟩ := Decoded.instr.inj (hd.symm.trans h)
    exact hw
  all_goals next hd => exact Decoded.noConfusion (hd.symm.trans h)

/-- A transfer used up by its packet leaves the port. -/
@[simp] theorem remaining_nil (later : List HostInput) : remaining [] later = later := rfl

/-- What a packet leaves of its transfer stays at the front of the port (R86). -/
theorem remaining_of_ne_nil {rest : List Byte} (h : rest ≠ []) (later : List HostInput) :
    remaining rest later = .sent rest :: later :=
  if_neg (mt List.length_eq_zero_iff.mp h)

/-- A packet that decodes is taken from the port and selected to run. -/
theorem takePacket_of_instr {bytes rest : List Byte} {i : Instr} (h : decodePacket bytes = .instr i rest)
    (later : List HostInput) (s : State) :
    takePacket bytes later s = .run i (s.setPort (remaining rest later)) := by
  rw [takePacket, h]

theorem step_of_run {s u : State} {i : Instr} (h : nextAction s = .run i u) : step s = exec i u := by
  rw [step, h]

/-- With no unit call waiting, a packet at the front of the port that decodes is run, on the state that has taken it. -/
theorem step_packet {s : State} {bytes rest : List Byte} {later : List HostInput} {i : Instr}
    (hc : s.unitCalls = []) (hp : s.commandPort = .sent bytes :: later) (hd : decodePacket bytes = .instr i rest) :
    step s = exec i (s.setPort (remaining rest later)) :=
  step_of_run ((nextAction_sent hc hp).trans (takePacket_of_instr hd later s))

/-- Settles O44: the step is `step_packet`; what it leaves of the port is split by whether the packet used up its
transfer. -/
theorem stepRunsTheDecodedPacket : Obligations.StepRunsTheDecodedPacket := by
  intro bytes rest later i s hc hp hd
  have hstep : step s = exec i (s.setPort (remaining rest later)) := step_packet hc hp hd
  refine ⟨wf_of_decodePacket_instr hd, ?_, ?_⟩
  · rintro rfl
    exact hstep
  · intro hr
    rw [remaining_of_ne_nil hr] at hstep
    exact hstep

end Sys2Proof.Machine

/-! PROOFS. Each command's meaning as one `command` (spec R90). -/

namespace Sys2Proof.Machine

section

variable (s : State)

theorem exec_init (seed1 seed2 : Word) :
    exec (.init seed1 seed2) s = command .init none true (initEffect seed1 seed2 s) s := rfl

theorem exec_update (len : Word) (payload : List Byte) :
    exec (.update len payload) s =
      command .update (updateFault len s) (payloadOk len payload) (updateEffect payload s) s := rfl

theorem exec_final : exec .final s = command .final (phaseFault s) true (finalEffect s) s := rfl

theorem exec_hash128 (seed1 seed2 len : Word) (message : List Byte) :
    exec (.hash128 seed1 seed2 len message) s =
      command .hash128 none (payloadOk len message)
        (finished .hash128 [(hashPair kp message seed1 seed2).1, (hashPair kp message seed1 seed2).2] s) s := rfl

theorem exec_hash64 (seed len : Word) (message : List Byte) :
    exec (.hash64 seed len message) s =
      command .hash64 none (payloadOk len message)
        (finished .hash64 [(hashPair kp message seed seed).1] s) s := rfl

theorem exec_hash32 (seed32 : BitVec 32) (len : Word) (message : List Byte) :
    exec (.hash32 seed32 len message) s =
      command .hash32 none (payloadOk len message)
        (finished .hash32 [zext64 (low32 (hashPair kp message (zext64 seed32) (zext64 seed32)).1)] s) s := rfl

end

end Sys2Proof.Machine

/-! PROOFS. What an undefined context and scratch bytes can change: nothing that an outcome shows (spec R34, R42, R45). -/

namespace Sys2Proof.Machine

section

variable {s t : State}

/-! ### What alike states share -/

theorem State.Alike.phase_eq (h : State.Alike s t) : t.phase = s.phase := h.1

theorem State.Alike.fault_eq (h : State.Alike s t) : t.fault = s.fault := h.2.1

theorem State.Alike.commandPort_eq (h : State.Alike s t) : t.commandPort = s.commandPort := h.2.2.1

theorem State.Alike.unitCalls_eq (h : State.Alike s t) : t.unitCalls = s.unitCalls := by
  obtain ⟨_, _, _, _, ⟨hcalls, _, _⟩, _⟩ := h
  exact hcalls

/-- A Ready context is the same in both states up to the scratch bytes of BUF (R34). -/
theorem State.Alike.context_eq (h : State.Alike s t) (hready : s.phase = .ready) :
    t.words = s.words ∧ t.length = s.length ∧ t.remainder = s.remainder ∧ t.held = s.held := by
  obtain ⟨_, _, _, _, _, hctx⟩ := h
  exact hctx hready

/-! ### Alike states stay alike under the same update -/

theorem State.Alike.setPort (h : State.Alike s t) (port : List HostInput) :
    State.Alike (s.setPort port) (t.setPort port) := by
  obtain ⟨hphase, hfault, _, hresp, hmodel, hctx⟩ := h
  exact ⟨hphase, hfault, rfl, hresp, hmodel, hctx⟩

theorem State.Alike.setCalls (h : State.Alike s t) (calls : List UnitCall) :
    State.Alike (s.setCalls calls) (t.setCalls calls) := by
  obtain ⟨hphase, hfault, hport, hresp, ⟨_, hret, hdraws⟩, hctx⟩ := h
  exact ⟨hphase, hfault, hport, hresp, ⟨rfl, hret, hdraws⟩, hctx⟩

theorem State.Alike.setFault (h : State.Alike s t) (c : BitVec 8) :
    State.Alike (s.setFault c) (t.setFault c) := by
  obtain ⟨hphase, _, hport, hresp, hmodel, hctx⟩ := h
  exact ⟨hphase, rfl, hport, hresp, hmodel, hctx⟩

theorem State.Alike.respond (h : State.Alike s t) (r : Response) :
    State.Alike (s.respond r) (t.respond r) := by
  obtain ⟨hphase, hfault, hport, hresp, hmodel, hctx⟩ := h
  exact ⟨hphase, hfault, hport, congrArg (· ++ [r]) hresp, hmodel, hctx⟩

theorem State.Alike.returnUnit (h : State.Alike s t) (r : UnitReturn) :
    State.Alike (s.returnUnit r) (t.returnUnit r) := by
  obtain ⟨hphase, hfault, hport, hresp, ⟨hcalls, hret, hdraws⟩, hctx⟩ := h
  exact ⟨hphase, hfault, hport, hresp, ⟨hcalls, congrArg (· ++ [r]) hret, hdraws⟩, hctx⟩

theorem State.Alike.finished (h : State.Alike s t) (o : Opcode) (results : List Word) :
    State.Alike (finished o results s) (finished o results t) :=
  h.respond _

theorem State.Alike.raise (h : State.Alike s t) (c : BitVec 8) (opc : Byte) :
    State.Alike (raise c opc s) (raise c opc t) :=
  (h.setFault c).respond _

/-- Alike states have the same FAULT, so they refuse with the same STATUS. -/
theorem State.Alike.refuse (h : State.Alike s t) (opc : Byte) :
    State.Alike (refuse opc s) (refuse opc t) := by
  rw [Machine.refuse, Machine.refuse, h.fault_eq]
  exact h.respond _

theorem State.Alike.reject (h : State.Alike s t) (c : BitVec 8) (opc : Byte) :
    State.Alike (reject c opc s) (reject c opc t) := by
  rw [Machine.reject, Machine.reject, h.fault_eq]
  split
  · exact h.refuse opc
  · exact h.raise c opc

/-- Reset draws the same unspecified values in both states, and leaves them UNINIT. -/
theorem State.Alike.applyReset (h : State.Alike s t) : State.Alike (applyReset s) (applyReset t) := by
  obtain ⟨_, _, hport, hresp, ⟨hcalls, hret, hdraws⟩, _⟩ := h
  exact ⟨rfl, rfl, hport, hresp, ⟨hcalls, hret, congrArg (· + 1) hdraws⟩, fun hready => nomatch hready⟩

/-- INIT writes all of a context but its scratch bytes: REMAINDER is 0, so no byte is held. -/
theorem State.Alike.initEffect (h : State.Alike s t) (seed1 seed2 : Word) :
    State.Alike (initEffect seed1 seed2 s) (initEffect seed1 seed2 t) := by
  obtain ⟨_, hfault, hport, hresp, hmodel, _⟩ := h
  rw [Machine.initEffect, Machine.initEffect]
  generalize expand kp seed1 seed2 = w
  have hctx : State.Alike ((s.setContext w s.buf 0 0).setPhase .ready) ((t.setContext w t.buf 0 0).setPhase .ready) :=
    ⟨rfl, hfault, hport, hresp, hmodel, fun _ => ⟨rfl, rfl, rfl, rfl⟩⟩
  exact hctx.finished .init []

/-- FINAL of a Ready context reads S and the held bytes, and no other byte of BUF (R202). -/
theorem State.Alike.finalEffect (h : State.Alike s t) (hready : s.phase = .ready) :
    State.Alike (finalEffect s) (finalEffect t) := by
  obtain ⟨hwords, _, _, hheld⟩ := h.context_eq hready
  rw [Machine.finalEffect, Machine.finalEffect, hwords, hheld]
  exact h.finished _ _

/-- UPDATE of a Ready context reads S, LENGTH and the held bytes (R195); the scratch bytes it leaves are those of the same
draw. -/
theorem State.Alike.absorbInto (h : State.Alike s t) (hready : s.phase = .ready) (payload : List Byte) :
    State.Alike (absorbInto payload s) (absorbInto payload t) := by
  obtain ⟨hphase, hfault, hport, hresp, ⟨hcalls, hret, hdraws⟩, hctx⟩ := h
  obtain ⟨hwords, hlength, _, hheld⟩ := hctx hready
  rw [Machine.absorbInto, Machine.absorbInto, hwords, hlength, hheld, hdraws]
  exact ⟨hphase, hfault, hport, hresp, ⟨hcalls, hret, congrArg (· + 1) hdraws⟩, fun _ => ⟨rfl, rfl, rfl, rfl⟩⟩

theorem State.Alike.updateEffect (h : State.Alike s t) (hready : s.phase = .ready) (payload : List Byte) :
    State.Alike (updateEffect payload s) (updateEffect payload t) := by
  unfold Machine.updateEffect
  split
  · exact h.finished _ _
  · exact (h.absorbInto hready payload).finished _ _

/-! ### Alike states fail the same tests -/

theorem State.Alike.phaseFault_eq (h : State.Alike s t) : phaseFault t = phaseFault s := by
  rw [phaseFault, phaseFault, h.phase_eq]

/-- LENGTH is compared only in READY, where alike states have the same (R243 before R244). -/
theorem State.Alike.updateFault_eq (h : State.Alike s t) (len : Word) : updateFault len t = updateFault len s := by
  rw [updateFault, updateFault, h.phaseFault_eq]
  cases hp : phaseFault s with
  | some c => rfl
  | none =>
    obtain ⟨_, hlength, _, _⟩ := h.context_eq (phaseFault_eq_none.mp hp)
    simp only [overflowFault, hlength]

theorem State.Alike.blocked_eq (h : State.Alike s t) (i : Instr) : blocked i t = blocked i s := by
  cases i
  case update len payload => exact h.updateFault_eq len
  case final => exact h.phaseFault_eq
  all_goals rfl

theorem State.Alike.answersEarly_eq (h : State.Alike s t) (i : Instr) : answersEarly i t = answersEarly i s := by
  rw [answersEarly, answersEarly, h.fault_eq, h.blocked_eq]

/-! ### Alike outcomes -/

/-- Two outcomes that nothing architectural tells apart: alike next states, or the same stop. -/
inductive AlikeOutcome : Host.Outcome State Fault Refusal → Host.Outcome State Fault Refusal → Prop
  | next {s t : State} (h : State.Alike s t) : AlikeOutcome (.next s) (.next t)
  | fault (f : Fault) : AlikeOutcome (.fault f) (.fault f)
  | refused (r : Refusal) : AlikeOutcome (.refused r) (.refused r)

/-- A command whose effects are alike, where nothing blocks it, has alike outcomes. -/
theorem State.Alike.command (h : State.Alike s t) {o : Opcode} {b : Option (BitVec 8)} {complete : Bool}
    {effect effect' : State} (he : b = none → State.Alike effect effect') :
    AlikeOutcome (command o b complete effect s) (command o b complete effect' t) := by
  unfold Machine.command
  rw [h.fault_eq]
  split
  · exact .next (h.refuse _)
  · cases b with
    | some c => exact .next (h.raise c _)
    | none =>
      cases complete with
      | true => exact .next (he rfl)
      | false => exact .fault _

theorem State.Alike.execShort (h : State.Alike s t) (message : List Byte) (seed1 seed2 : Word) :
    AlikeOutcome (execShort message seed1 seed2 s) (execShort message seed1 seed2 t) := by
  unfold Machine.execShort
  split
  · exact .next (h.returnUnit _)
  · exact .refused _

/-- Only INIT, UPDATE and FINAL touch the context; every other instruction answers from its operands. -/
theorem State.Alike.exec (h : State.Alike s t) (i : Instr) : AlikeOutcome (exec i s) (exec i t) := by
  cases i with
  | init seed1 seed2 =>
    rw [exec_init, exec_init]
    exact h.command fun _ => h.initEffect seed1 seed2
  | update len payload =>
    rw [exec_update, exec_update, h.updateFault_eq]
    refine h.command fun hb => ?_
    obtain ⟨hready, _⟩ := updateFault_eq_none.mp hb
    exact h.updateEffect hready payload
  | final =>
    rw [exec_final, exec_final, h.phaseFault_eq]
    exact h.command fun hb => h.finalEffect (phaseFault_eq_none.mp hb)
  | hash128 seed1 seed2 len message =>
    rw [exec_hash128, exec_hash128]
    exact h.command fun _ => h.finished _ _
  | hash64 seed len message =>
    rw [exec_hash64, exec_hash64]
    exact h.command fun _ => h.finished _ _
  | hash32 seed32 len message =>
    rw [exec_hash32, exec_hash32]
    exact h.command fun _ => h.finished _ _
  | mix data state => exact .next (h.returnUnit _)
  | endPartial state => exact .next (h.returnUnit _)
  | endHash data state => exact .next (h.returnUnit _)
  | shortMix w => exact .next (h.returnUnit _)
  | shortEnd w => exact .next (h.returnUnit _)
  | short message seed1 seed2 => exact h.execShort message seed1 seed2
  | expand seed1 seed2 => exact .next (h.returnUnit _)

/-! ### Alike actions -/

/-- Two actions of the same kind, on alike states. -/
inductive AlikeAction : Action → Action → Prop
  | hold : AlikeAction .hold .hold
  | become {s t : State} (h : State.Alike s t) : AlikeAction (.become s) (.become t)
  | run (i : Instr) {s t : State} (h : State.Alike s t) : AlikeAction (.run i s) (.run i t)
  | stuck (f : Fault) : AlikeAction (.stuck f) (.stuck f)
  | noMeaning (r : Refusal) : AlikeAction (.noMeaning r) (.noMeaning r)

theorem State.Alike.await (h : State.Alike s t) (bytes : List Byte) (later : List HostInput) :
    AlikeAction (await bytes later s) (await bytes later t) := by
  match later with
  | [] => exact .stuck _
  | .sent _ :: _ => exact .become (h.setPort _)
  | .reset :: _ => exact .become (h.setPort _).applyReset

/-- What a packet decodes to does not depend on the state; whether it is answered early is the same for both. -/
theorem State.Alike.takePacket (h : State.Alike s t) (bytes : List Byte) (later : List HostInput) :
    AlikeAction (takePacket bytes later s) (takePacket bytes later t) := by
  unfold Machine.takePacket
  cases decodePacket bytes with
  | instr i rest => exact .run i (h.setPort _)
  | shortPayload i =>
    dsimp only
    rw [h.answersEarly_eq]
    split
    · exact .run i (h.setPort _)
    · exact h.await bytes later
  | shortWords opc =>
    dsimp only
    rw [h.fault_eq]
    split
    · exact .become ((h.setPort _).refuse opc)
    · exact h.await bytes later
  | noHeader =>
    dsimp only
    split
    · exact .become (h.setPort _)
    · exact h.await bytes later
  | illegalOpcode opc => exact .become ((h.setPort _).reject _ opc)
  | reservedField opc rest => exact .become ((h.setPort _).reject _ opc)
  | unusedUop u => exact .noMeaning _
  | badOperands u => exact .noMeaning _

theorem State.Alike.takeCall (h : State.Alike s t) (c : UnitCall) (later : List UnitCall) :
    AlikeAction (takeCall c later s) (takeCall c later t) := by
  unfold Machine.takeCall
  cases decodeCall c
  case instr i rest => exact .run i (h.setCalls _)
  all_goals exact .noMeaning _

/-- The ports select the next action, and alike states have the same ports. -/
theorem State.Alike.nextAction (h : State.Alike s t) : AlikeAction (nextAction s) (nextAction t) := by
  unfold Machine.nextAction
  rw [h.commandPort_eq, h.unitCalls_eq]
  match s.unitCalls, s.commandPort with
  | c :: later, _ => exact h.takeCall c later
  | [], [] => exact .hold
  | [], .reset :: later => exact .become (h.setPort later).applyReset
  | [], .sent bytes :: later => exact h.takePacket bytes later

theorem State.Alike.step (h : State.Alike s t) : AlikeOutcome (step s) (step t) := by
  have hact : AlikeAction (Machine.nextAction s) (Machine.nextAction t) := h.nextAction
  unfold Machine.step
  generalize Machine.nextAction s = a at hact ⊢
  generalize Machine.nextAction t = b at hact ⊢
  cases hact with
  | hold => exact .next h
  | become hu => exact .next hu
  | run i hu => exact hu.exec i
  | stuck f => exact .fault f
  | noMeaning r => exact .refused r

end

theorem AlikeOutcome.eq_next {s : State} {out : Host.Outcome State Fault Refusal} (h : AlikeOutcome (.next s) out) :
    ∃ t, out = .next t ∧ State.Alike s t := by
  cases h with
  | next h => exact ⟨_, rfl, h⟩

theorem AlikeOutcome.eq_fault {f : Fault} {out : Host.Outcome State Fault Refusal} (h : AlikeOutcome (.fault f) out) :
    out = .fault f := by
  cases h with
  | fault => rfl

theorem AlikeOutcome.eq_refused {r : Refusal} {out : Host.Outcome State Fault Refusal}
    (h : AlikeOutcome (.refused r) out) : out = .refused r := by
  cases h with
  | refused => rfl

/-- Settles O53: alike states have alike next actions, which have alike outcomes (`State.Alike.step`). -/
theorem unspecifiedStateIsNeverObserved : Obligations.UnspecifiedStateIsNeverObserved := by
  intro s t h
  have hstep : AlikeOutcome (step s) (step t) := h.step
  refine ⟨fun s' hs => ?_, fun f hs => ?_, fun r hs => ?_⟩ <;> rw [hs] at hstep
  · exact hstep.eq_next
  · exact hstep.eq_fault
  · exact hstep.eq_refused

end Sys2Proof.Machine

/-! PROOFS. What a step keeps: the invariant (spec R36, R41, R46), FAULT while it is set (R39, R247), the phase (R37). -/

namespace Sys2Proof.Machine

/-! ### The count of UPDATE -/

theorem lengthWord_toNat {n : Nat} (h : n < 2 ^ 64) : (lengthWord n).toNat = n :=
  Nat.mod_eq_of_lt h

/-- With no overflow, LENGTH counts the payload as a natural number (R195, R244). -/
theorem absorbInto_length_toNat {payload : List Byte} {s : State}
    (hlt : s.length.toNat + payload.length < 2 ^ 64) :
    (absorbInto payload s).length.toNat = s.length.toNat + payload.length := by
  have hw : (lengthWord payload.length).toNat = payload.length := lengthWord_toNat (by omega)
  rw [absorbInto_length, BitVec.toNat_add_of_lt (hw.symm ▸ hlt), hw]

/-! ### The invariant -/

theorem resetState_inv : State.reset.Inv :=
  ⟨fun hready => (nomatch hready), Nat.zero_le 4⟩

/-- A reset leaves no Ready context and no fault, from any state. -/
theorem applyReset_inv (s : State) : (applyReset s).Inv :=
  ⟨fun hready => (nomatch hready), Nat.zero_le 4⟩

/-- UPDATE that does not overflow adds the same to REMAINDER, modulo 96, and to LENGTH (R195). -/
theorem updateEffect_contextOk {len : Word} {payload : List Byte} {s : State} (hs : s.contextOk)
    (hl : payload.length = len.toNat) (hb : updateFault len s = none) :
    (updateEffect payload s).contextOk := by
  obtain ⟨hready, hlen⟩ := updateFault_eq_none.mp hb
  obtain ⟨_, hmod⟩ := hs hready
  obtain hzero | hpos := Nat.eq_zero_or_pos payload.length
  · obtain rfl := List.length_eq_zero_iff.mp hzero
    exact hs
  · have hne : len ≠ 0 := by
      rintro rfl
      exact hpos.ne' hl
    have hlt : s.length.toNat + payload.length < 2 ^ 64 := hl ▸ hlen.resolve_left hne
    intro _
    rw [updateEffect_of_pos s hpos, finished_remainder, finished_length, (absorbInto_held payload s).2,
      absorbInto_length_toNat hlt]
    omega

/-- A command's own effect keeps the invariant. -/
theorem CommandEffect.inv {i : Instr} {o : Opcode} {s t : State} (h : CommandEffect i o s t)
    (hs : s.Inv) (hb : blocked i s = none) : t.Inv := by
  obtain ⟨hctx, hfault⟩ := hs
  cases h with
  | init seed1 seed2 hi ho ht =>
    subst ht
    exact ⟨fun _ => by simp, by simpa using hfault⟩
  | update len payload hi ho hl ht =>
    subst hi ht
    exact ⟨updateEffect_contextOk hctx hl hb, by simpa using hfault⟩
  | pure results ht =>
    subst ht
    exact ⟨hctx, hfault⟩

/-- Settles O54: only a reset and a command write what the invariant reads of the context, and only a reset and a raised
fault write FAULT. -/
theorem stepKeepsTheInvariant : Obligations.StepKeepsTheInvariant := by
  intro s t hs h
  obtain ⟨hctx, hfault⟩ := hs
  cases step_cases h with
  | unitCall c later r hc ht => subst ht; exact ⟨hctx, hfault⟩
  | idle hc hp ht => subst ht; exact ⟨hctx, hfault⟩
  | reset later hc hp ht => subst ht; exact applyReset_inv _
  | moved bytes later port hc hp hn ht => subst ht; exact ⟨hctx, hfault⟩
  | refused opc r rest later hc hp hl hf ht => subst ht; exact ⟨hctx, hfault⟩
  | raised opc r c rest later hc hp hl hf hr ht => subst ht; exact ⟨hctx, hr.2⟩
  | ran o r i rest later hc hp hl hf hi hw hb hd ht =>
    exact ht.inv ⟨hctx, hfault⟩ ((blocked_setPort ..).trans hb)

/-- Settles O55: `resetState_inv`. -/
theorem resetMeetsTheInvariant : Obligations.ResetMeetsTheInvariant := resetState_inv

/-! ### FAULT, the phase and reset -/

/-- A reset that a step takes waited on the port. -/
theorem not_noReset {s : State} {later : List HostInput}
    (hp : s.commandPort = .reset :: later ∨ ∃ bytes, s.commandPort = .sent bytes :: .reset :: later) :
    ¬ s.NoReset := by
  obtain hp | ⟨bytes, hp⟩ := hp <;> simp [hp]

/-- Settles O37: without a reset, a step of a faulted engine can only return a unit call, hold, move the port or refuse. -/
theorem faultIsLeftOnlyByReset : Obligations.FaultIsLeftOnlyByReset := by
  intro s t hf hno h
  have hsame : State.SameContext s s := ⟨rfl, rfl, rfl, rfl, rfl⟩
  cases step_cases h with
  | unitCall c later r hc ht => subst ht; exact ⟨rfl, hsame, .inl rfl⟩
  | idle hc hp ht => subst ht; exact ⟨rfl, hsame, .inl rfl⟩
  | reset later hc hp ht => exact absurd hno (not_noReset hp)
  | moved bytes later port hc hp hn ht => subst ht; exact ⟨rfl, hsame, .inl rfl⟩
  | refused opc r rest later hc hp hl _ ht => subst ht; exact ⟨rfl, hsame, .inr ⟨opc, rfl⟩⟩
  | raised opc r c rest later hc hp hl hf0 hr ht => exact absurd hf0 hf
  | ran o r i rest later hc hp hl hf0 hi hw hb hd ht => exact absurd hf0 hf

/-- Of the commands, only INIT writes the phase. -/
theorem CommandEffect.phase {i : Instr} {o : Opcode} {s t : State} (h : CommandEffect i o s t) :
    (∃ seed1 seed2, i = .init seed1 seed2 ∧ t = initEffect seed1 seed2 s) ∨ t.phase = s.phase := by
  cases h with
  | init seed1 seed2 hi ho ht => exact .inl ⟨seed1, seed2, hi, ht⟩
  | update len payload hi ho hl ht => subst ht; exact .inr (updateEffect_phase ..)
  | pure results ht => subst ht; exact .inr rfl

/-- What a step can do to the phase: a reset's, INIT's, or nothing. -/
theorem step_phase {s t : State} (h : step s = .next t) :
    (∃ later : List HostInput,
      (s.commandPort = .reset :: later ∨ ∃ bytes : List Byte, s.commandPort = .sent bytes :: .reset :: later) ∧
      t = applyReset (s.setPort later)) ∨
    (∃ (bytes rest : List Byte) (later : List HostInput) (seed1 seed2 : Word),
      s.commandPort = .sent bytes :: later ∧ decodePacket bytes = .instr (.init seed1 seed2) rest ∧
      t = initEffect seed1 seed2 (s.setPort (remaining rest later))) ∨
    t.phase = s.phase := by
  cases step_cases h with
  | unitCall c later r hc ht => subst ht; exact .inr (.inr rfl)
  | idle hc hp ht => subst ht; exact .inr (.inr rfl)
  | reset later hc hp ht => exact .inl ⟨later, hp, ht⟩
  | moved bytes later port hc hp hn ht => subst ht; exact .inr (.inr rfl)
  | refused opc r rest later hc hp hl hf ht => subst ht; exact .inr (.inr rfl)
  | raised opc r c rest later hc hp hl hf hr ht => subst ht; exact .inr (.inr rfl)
  | ran o r i rest later hc hp hl hf hi hw hb hd ht =>
    obtain ⟨seed1, seed2, rfl, hinit⟩ | hphase := ht.phase
    · exact .inr (.inl ⟨_, rest, later, seed1, seed2, hp, hd, hinit⟩)
    · exact .inr (.inr hphase)

/-- Settles O43: of the three things a step can do to the phase (`step_phase`), a reset ends in UNINIT and INIT in READY. -/
theorem onlyResetLeavesReady : Obligations.OnlyResetLeavesReady := by
  intro s t h
  obtain ⟨later, hp, rfl⟩ | ⟨bytes, rest, later, seed1, seed2, hp, hd, rfl⟩ | hphase := step_phase h
  · refine ⟨fun _ _ => ⟨later, hp, rfl⟩, fun _ hready => ?_⟩
    simp at hready
  · refine ⟨fun _ huninit => ?_, fun _ _ => ⟨bytes, rest, later, seed1, seed2, hp, hd, by simp⟩⟩
    simp at huninit
  · rw [hphase]
    refine ⟨fun hready huninit => ?_, fun huninit hready => ?_⟩ <;> simp [huninit] at hready

/-- The step of an engine with nothing on its ports (R257). -/
theorem step_idle {s : State} (hc : s.unitCalls = []) (hp : s.commandPort = []) : step s = .next s := by
  rw [step, nextAction_idle hc hp]

/-- Settles O42: the fields of the reset state, and `step_idle`, since both its ports are empty. -/
theorem resetStateIsUninitialised : Obligations.ResetStateIsUninitialised :=
  ⟨State.reset_phase, rfl, State.reset_fault, State.reset_commandPort, State.reset_responsePort,
    step_idle State.reset_unitCalls State.reset_commandPort⟩

end Sys2Proof.Machine

/-! PROOFS. A stream of chunks as a function of their concatenation (spec R46 (iii), R195). -/

namespace Sys2Proof.Machine

/-! ### Folding MIX over a stream -/

theorem slice_add (m : List Byte) (i n : Nat) : slice m i (i + n) = (m.drop i).take n := by
  rw [slice, Nat.add_sub_cancel_left]

/-- Block `i + 1` of a stream is block `i` of what follows its first block. -/
theorem slice_drop_block (m : List Byte) (i : Nat) :
    slice m (96 * (i + 1)) (96 * (i + 1) + 96) = slice (m.drop 96) (96 * i) (96 * i + 96) := by
  rw [slice_add, slice_add, List.drop_drop, Nat.mul_add_one, Nat.add_comm]

/-- The model's recursion over the front of the stream is R46 (iii)'s fold over block numbers. -/
theorem mixBlocks_eq_foldl (kp : KP) (n : Nat) (m : List Byte) (w : Words12) :
    mixBlocks kp n m w =
      (List.range n).foldl (fun t i => mix kp (block12 (slice m (96 * i) (96 * i + 96))) t) w := by
  induction n generalizing m w with
  | zero => rfl
  | succ n ih =>
    rw [mixBlocks, ih, List.range_succ_eq_map, List.foldl_cons, List.foldl_map]
    simp only [Nat.succ_eq_add_one, slice_drop_block]
    rfl

theorem foldBlocks_eq_mixBlocks (kp : KP) (m : List Byte) (w : Words12) :
    foldBlocks kp m w = mixBlocks kp (m.length / 96) m w :=
  (mixBlocks_eq_foldl ..).symm

theorem mixBlocks_add (kp : KP) (a b : Nat) (m : List Byte) (w : Words12) :
    mixBlocks kp (a + b) m w = mixBlocks kp b (m.drop (96 * a)) (mixBlocks kp a m w) := by
  induction a generalizing m w with
  | zero => simp [mixBlocks]
  | succ a ih =>
    rw [Nat.succ_add, mixBlocks, mixBlocks, ih, List.drop_drop, Nat.mul_succ, Nat.add_comm 96]

/-- Blocks that are all there do not depend on the bytes behind them. -/
theorem mixBlocks_append (kp : KP) (n : Nat) (m p : List Byte) (w : Words12) (h : 96 * n ≤ m.length) :
    mixBlocks kp n (m ++ p) w = mixBlocks kp n m w := by
  induction n generalizing m w with
  | zero => rfl
  | succ n ih =>
    have hdrop : 96 * n ≤ (m.drop 96).length := by rw [List.length_drop]; omega
    rw [mixBlocks, mixBlocks, List.take_append_of_le_length (by omega), List.drop_append_of_le_length (by omega),
      ih _ _ hdrop]

/-- More bytes leave a stream's complete blocks in place: what follows them is what was unmixed, then the new bytes. -/
theorem drop_blocks_append (m p : List Byte) : (m ++ p).drop (96 * (m.length / 96)) = unmixed m ++ p :=
  List.drop_append_of_le_length (Nat.mul_div_le ..)

theorem unmixed_length (m : List Byte) : (unmixed m).length = m.length % 96 := by
  rw [unmixed, List.length_drop]
  omega

/-- The complete blocks of a longer stream: those before, and those of the unmixed bytes with the new ones. -/
theorem append_blocks (m p : List Byte) :
    (m ++ p).length / 96 = m.length / 96 + (unmixed m ++ p).length / 96 := by
  rw [List.length_append, List.length_append, unmixed_length]
  omega

/-- Mixing a stream in two parts: the first part's blocks, then those of its unmixed bytes with the second part. -/
theorem foldBlocks_append (kp : KP) (m p : List Byte) (w : Words12) :
    foldBlocks kp (m ++ p) w = foldBlocks kp (unmixed m ++ p) (foldBlocks kp m w) := by
  simp only [foldBlocks_eq_mixBlocks]
  rw [append_blocks, mixBlocks_add, drop_blocks_append, mixBlocks_append kp _ m p w (Nat.mul_div_le ..)]

theorem unmixed_append (m p : List Byte) : unmixed (m ++ p) = unmixed (unmixed m ++ p) := by
  rw [unmixed, append_blocks, Nat.mul_add, ← List.drop_drop, drop_blocks_append]
  rfl

/-- UPDATE's pure part mixes the complete blocks of the held bytes and the payload, and holds the rest (R195). -/
theorem absorb_eq (kp : KP) (w : Words12) (held bytes : List Byte) :
    absorb kp w held bytes = (foldBlocks kp (held ++ bytes) w, unmixed (held ++ bytes)) := by
  rw [foldBlocks_eq_mixBlocks, unmixed, List.length_append, absorb]

/-! ### A context that holds a stream -/

/-- The context is that of a stream `m` seeded with the words `w`: the four equations of R46 (iii), in READY without
fault. -/
structure HoldsStream (w : Words12) (m : List Byte) (s : State) : Prop where
  phase : s.phase = .ready
  fault : s.fault = 0
  length : s.length.toNat = m.length
  remainder : s.remainder.toNat = m.length % 96
  held : s.held = unmixed m
  words : s.words = foldBlocks kp m w

/-- After INIT the context is that of the empty stream (R190). -/
theorem initEffect_holdsStream {s : State} (seed1 seed2 : Word) (hf : s.fault = 0) :
    HoldsStream (expand kp seed1 seed2) [] (initEffect seed1 seed2 s) where
  phase := initEffect_phase ..
  fault := (initEffect_fault ..).trans hf
  length := by simp
  remainder := by simp
  held := by
    apply List.eq_nil_of_length_eq_zero
    simp
  words := initEffect_words ..

/-- UPDATE appends its payload to the stream (R195, R196). -/
theorem HoldsStream.updateEffect {w : Words12} {m : List Byte} {s : State} (h : HoldsStream w m s) (p : List Byte)
    (hlt : (m ++ p).length < 2 ^ 64) : HoldsStream w (m ++ p) (updateEffect p s) := by
  obtain ⟨hphase, hfault, hlength, hremainder, hheld, hwords⟩ := h
  obtain hzero | hpos := Nat.eq_zero_or_pos p.length
  · obtain rfl := List.length_eq_zero_iff.mp hzero
    rw [List.append_nil, updateEffect_nil]
    exact ⟨hphase, hfault, hlength, hremainder, hheld, hwords⟩
  · have hlen : s.length.toNat + p.length < 2 ^ 64 := by rwa [hlength, ← List.length_append]
    obtain ⟨hheld', hremainder'⟩ := absorbInto_held p s
    rw [absorb_eq, hheld, ← unmixed_append] at hheld'
    rw [updateEffect_of_pos s hpos]
    exact
      { phase := hphase
        fault := hfault
        length := by rw [finished_length, absorbInto_length_toNat hlen, hlength, List.length_append]
        remainder := by
          rw [finished_remainder, hremainder', hremainder, List.length_append]
          omega
        held := hheld'
        words := by rw [finished_words, absorbInto_words, absorb_eq, hheld, hwords, ← foldBlocks_append] }

/-- UPDATE with the `len` of its payload takes effect when nothing overflows (R90). -/
theorem exec_updateWith {p : List Byte} {s : State} (hf : s.fault = 0) (hready : s.phase = .ready)
    (hlt : s.length.toNat + p.length < 2 ^ 64) : exec (updateWith p) s = .next (updateEffect p s) := by
  have hlen : (lengthWord p.length).toNat = p.length := lengthWord_toNat (by omega)
  have hpayload : payloadOk (lengthWord p.length) p = true := by rw [payloadOk, hlen, beq_self_eq_true]
  have hblocked : updateFault (lengthWord p.length) s = none :=
    updateFault_eq_none.mpr ⟨hready, .inr (hlen.symm ▸ hlt)⟩
  rw [updateWith, exec_update, hpayload, hblocked, command_effect hf]

theorem execAll_cons_of_next {i : Instr} {is : List Instr} {s t : State} (h : exec i s = .next t) :
    execAll (i :: is) s = execAll is t := by
  rw [execAll, h]

/-- One UPDATE a chunk appends the chunks to the stream, with one response of STATUS 0 each. -/
theorem HoldsStream.execAll_updates {w : Words12} {m : List Byte} {s : State} (h : HoldsStream w m s)
    (chunks : List (List Byte)) (hlt : (m ++ chunks.flatten).length < 2 ^ 64) :
    ∃ t, execAll (chunks.map updateWith) s = .next t ∧ HoldsStream w (m ++ chunks.flatten) t ∧
      t.responsePort = s.responsePort ++ chunks.map fun _ => ⟨0, 0x02, []⟩ := by
  induction chunks generalizing m s with
  | nil => exact ⟨s, rfl, by simpa using h, by simp⟩
  | cons p chunks ih =>
    rw [List.flatten_cons, ← List.append_assoc] at hlt ⊢
    have hp : (m ++ p).length < 2 ^ 64 := by rw [List.length_append] at hlt; omega
    have hexec : exec (updateWith p) s = .next (Machine.updateEffect p s) :=
      exec_updateWith h.fault h.phase (by rwa [h.length, ← List.length_append])
    obtain ⟨t, ht, hstream, hresp⟩ := ih (h.updateEffect p hp) hlt
    refine ⟨t, ?_, hstream, ?_⟩
    · rw [List.map_cons, execAll_cons_of_next hexec, ht]
    · rw [hresp, updateEffect_responsePort, List.append_assoc, List.map_cons, List.singleton_append]

/-- INIT and one UPDATE a chunk leave the context of the chunks' concatenation (R46 (iii), R210). -/
theorem execAll_streamOf (seed1 seed2 : Word) (chunks : List (List Byte)) {s : State} (hf : s.fault = 0)
    (hlt : chunks.flatten.length < 2 ^ 64) :
    ∃ t, execAll (streamOf seed1 seed2 chunks) s = .next t ∧
      HoldsStream (expand kp seed1 seed2) chunks.flatten t ∧
      t.responsePort = s.responsePort ++ ⟨0, 0x01, []⟩ :: chunks.map fun _ => ⟨0, 0x02, []⟩ := by
  have hexec : exec (.init seed1 seed2) s = .next (initEffect seed1 seed2 s) := by
    rw [exec_init, command_effect hf]
  obtain ⟨t, ht, hstream, hresp⟩ := (initEffect_holdsStream seed1 seed2 hf).execAll_updates chunks hlt
  refine ⟨t, ?_, hstream, ?_⟩
  · rw [streamOf, execAll_cons_of_next hexec, ht]
  · rw [hresp, initEffect_responsePort, List.append_assoc, List.singleton_append]

/-- Settles O28: `execAll_streamOf`, by induction on the chunks; the key fact is that mixing a stream in two parts is mixing
it whole (`foldBlocks_append`). -/
theorem streamIsAFunctionOfItsConcatenation : Obligations.StreamIsAFunctionOfItsConcatenation := by
  intro seed1 seed2 chunks s hf hlt
  obtain ⟨t, ht, ⟨hphase, hfault, hlength, hremainder, hheld, hwords⟩, hresp⟩ :=
    execAll_streamOf seed1 seed2 chunks hf hlt
  exact ⟨t, ht, hphase, hfault, hlength, hremainder, hheld, hwords, hresp⟩

end Sys2Proof.Machine

/-! PROOFS. A command whose payload is not all there, given to `exec` (spec R71). -/

namespace Sys2Proof.Machine

/-- Every command is `command` over its state tests and its well-formedness (R71, R90). -/
theorem exec_eq_command {i : Instr} {o : Opcode} (hi : commandOf i = some o) (s : State) :
    ∃ effect, exec i s = command o (blocked i s) i.wf effect s := by
  cases i <;> cases hi
  case init => exact ⟨_, exec_init s _ _⟩
  case update => exact ⟨_, exec_update s _ _⟩
  case final => exact ⟨_, exec_final s⟩
  case hash128 => exact ⟨_, exec_hash128 s _ _ _ _⟩
  case hash64 => exact ⟨_, exec_hash64 s _ _ _⟩
  case hash32 => exact ⟨_, exec_hash32 s _ _ _⟩

/-- A command that nothing blocks and that lacks bytes is stuck. -/
theorem command_incomplete {o : Opcode} {effect s : State} (hf : s.fault = 0) :
    command o none false effect s = .fault .incompletePacket := by
  simp [command, hf]

/-- Settles O48: every command is one `command`, which is stuck when its payload is not `len` bytes. -/
theorem illFormedCommandHasNoStep : Obligations.IllFormedCommandHasNoStep := by
  intro i o s hi hw hf hb
  obtain ⟨effect, h⟩ := exec_eq_command hi s
  rw [h, hb, hw, command_incomplete hf]

end Sys2Proof.Machine

/-! PROOFS. The words of a packet read back from its bytes (spec R81, R82, R110, R112). -/

namespace Sys2Proof.Machine

/-- The first `n` bytes of a word hold its value modulo 2^(8n). -/
theorem leNat_map_byteOf (v : Word) (n : Nat) :
    leNat ((List.range n).map (byteOf v)) = v.toNat % 2 ^ (8 * n) := by
  induction n with
  | zero => simp [Nat.mod_one]
  | succ n ih =>
    have hbyte : (byteOf v n).toNat = v.toNat / 2 ^ (8 * n) % 2 ^ 8 := by
      rw [byteOf, BitVec.extractLsb'_toNat, Nat.shiftRight_eq_div_pow]
    rw [List.range_succ, List.map_append, leNat_append, ih, List.length_map, List.length_range, List.map_singleton,
      leNat_cons, leNat_nil, Nat.mul_zero, Nat.add_zero, hbyte, Nat.mul_succ, Nat.pow_add, Nat.mod_mul]

/-- Decoding undoes encoding (R112). -/
theorem le64_enc64 (v : Word) : le64 (enc64 v) = v := by
  apply BitVec.eq_of_toNat_eq
  rw [le64_toNat _ (enc64_length v).le, enc64, leNat_map_byteOf, Nat.mod_eq_of_lt v.isLt]

/-- A word of a packet does not depend on the bytes behind it. -/
theorem packetWord_append {front : List Byte} {k : Nat} (h : 8 * k + 8 ≤ front.length) (back : List Byte) :
    packetWord (front ++ back) k = packetWord front k := by
  have hdrop : 8 * k + 8 - 8 * k ≤ (front.drop (8 * k)).length := by rw [List.length_drop]; omega
  rw [packetWord, packetWord, slice, slice, List.drop_append_of_le_length (by omega),
    List.take_append_of_le_length hdrop]

/-- The bytes of a packet's words: eight for each (R81). -/
theorem flatMap_enc64_length (ws : List Word) : (ws.flatMap enc64).length = 8 * ws.length := by
  induction ws with
  | nil => rfl
  | cons w ws ih => rw [List.flatMap_cons, List.length_append, enc64_length, ih, List.length_cons]; omega

/-- Word `k` read from the encodings of words is the `k`-th of them. -/
theorem packetWord_flatMap_enc64 (ws : List Word) (body : List Byte) (k : Nat) (hk : k < ws.length) :
    packetWord (ws.flatMap enc64 ++ body) k = ws[k] := by
  induction ws generalizing k with
  | nil => exact absurd hk (Nat.not_lt_zero k)
  | cons w ws ih =>
    rw [List.flatMap_cons, List.append_assoc]
    cases k with
    | zero =>
      have hslice : slice (enc64 w) 0 8 = enc64 w := List.take_of_length_le (enc64_length w).le
      rw [packetWord_append (enc64_length w).ge, packetWord, hslice, le64_enc64, List.getElem_cons_zero]
    | succ k =>
      have hdrop : (enc64 w ++ (ws.flatMap enc64 ++ body)).drop (8 * (k + 1)) =
          (ws.flatMap enc64 ++ body).drop (8 * k) := by
        rw [List.drop_append, List.drop_eq_nil_of_le (by rw [enc64_length]; omega), enc64_length, List.nil_append]
        rfl
      rw [List.getElem_cons_succ, ← ih k (Nat.lt_of_succ_lt_succ hk), packetWord, packetWord, slice, slice, hdrop,
        Nat.add_sub_cancel_left, Nat.add_sub_cancel_left]

@[simp] theorem headerOpc_headerWord (o : Opcode) : headerOpc (headerWord o) = opcodeByte o := by cases o <;> rfl

@[simp] theorem headerRsv_headerWord (o : Opcode) : headerRsv (headerWord o) = 0 := by cases o <;> rfl

/-- A zero-extended seed meets HASH32's test of its seed word (R84, R89 (c)). -/
@[simp] theorem seedHigh_zext64 (v : BitVec 32) : seedHigh (zext64 v) = 0 := by
  apply BitVec.eq_of_toNat_eq
  have := v.isLt
  simp only [seedHigh, zext64, BitVec.extractLsb'_toNat, BitVec.toNat_setWidth, Nat.shiftRight_eq_div_pow,
    BitVec.ofNat_eq_ofNat, BitVec.toNat_ofNat]
  omega

end Sys2Proof.Machine

/-! PROOFS. What the decoder answers to a front part of a well-formed packet (spec R71, R83, R86). -/

namespace Sys2Proof.Machine

/-- The bytes of the words of a command's packet, the header first (R81, R82). -/
def headOf (o : Opcode) (operands : List Word) : List Byte := (headerWord o :: operands).flatMap enc64

theorem packetBytes_eq (o : Opcode) (operands : List Word) (payload : List Byte) :
    packetBytes o operands payload = headOf o operands ++ payload := rfl

theorem headOf_length (o : Opcode) (operands : List Word) : (headOf o operands).length = 8 * (1 + operands.length) := by
  rw [headOf, flatMap_enc64_length, List.length_cons, Nat.add_comm]

theorem packetWord_headOf_zero (o : Opcode) (operands : List Word) (body : List Byte) :
    packetWord (headOf o operands ++ body) 0 = headerWord o :=
  packetWord_flatMap_enc64 (headerWord o :: operands) body 0 (Nat.succ_pos _)

theorem packetWord_headOf_succ {operands : List Word} {k : Nat} {w : Word} (h : operands[k]? = some w) (o : Opcode)
    (body : List Byte) : packetWord (headOf o operands ++ body) (k + 1) = w := by
  obtain ⟨hk, rfl⟩ := List.getElem?_eq_some_iff.mp h
  exact packetWord_flatMap_enc64 (headerWord o :: operands) body (k + 1) (Nat.succ_lt_succ hk)

/-- A packet has a header (R82). -/
theorem eight_le_headBytes (o : Opcode) : 8 ≤ headBytes o := by cases o <;> decide

/-- All words of a well-formed header and its operands decode to the operands (R90 (2) to (4)). -/
theorem decodePacket_headOf {o : Opcode} {operands : List Word} (h : 8 * (1 + operands.length) = headBytes o)
    (body : List Byte) :
    decodePacket (headOf o operands ++ body) = decodeOperands o (headOf o operands ++ body) body := by
  have hlen : (headOf o operands).length = headBytes o := (headOf_length o operands).trans h
  have hge : headBytes o ≤ (headOf o operands ++ body).length := by rw [List.length_append, hlen]; omega
  have hheader : ¬ (headOf o operands ++ body).length < 8 := Nat.not_lt.mpr ((eight_le_headBytes o).trans hge)
  have hdrop : (headOf o operands ++ body).drop (headBytes o) = body := List.drop_left' hlen
  simp only [decodePacket, if_neg hheader, packetWord_headOf_zero, headerOpc_headerWord, opcodeOf_opcodeByte,
    if_neg (Nat.not_lt.mpr hge), headerRsv_headerWord, ne_eq, not_true_eq_false, if_false, hdrop]

/-- A front part that ends inside a packet's words decodes to nothing yet. -/
theorem decodePacket_of_lt_headBytes {o : Opcode} {operands : List Word} {front back payload : List Byte}
    (hcut : front ++ back = headOf o operands ++ payload) (hlt : front.length < headBytes o) :
    decodePacket front = .noHeader ∨ decodePacket front = .shortWords (opcodeByte o) := by
  by_cases hl : front.length < 8
  · exact .inl (if_pos hl)
  · have hword : packetWord front 0 = headerWord o := by
      rw [← packetWord_append (Nat.le_of_not_lt hl) back, hcut, packetWord_headOf_zero]
    refine .inr ?_
    simp only [decodePacket, if_neg hl, hword, headerOpc_headerWord, opcodeOf_opcodeByte, if_pos hlt]

/-- With fewer bytes than the payload of a well-formed command has, bytes are missing (R71). -/
theorem takePayload_of_shorter {len : Word} {payload part : List Byte} (hw : payloadOk len payload = true)
    (h : part.length < payload.length) (mk : List Byte → Instr) :
    takePayload len part mk = .shortPayload (mk part) := by
  have hlen : payload.length = len.toNat := beq_iff_eq.mp hw
  exact if_pos (hlen ▸ h)

/-- The decoder's answer to a command of which some payload bytes are missing: the command with the bytes so far, under
the same state tests (R71, R90). -/
abbrev DecodesToPartOf (i : Instr) (d : Decoded) : Prop :=
  ∃ j, d = .shortPayload j ∧ ∀ s, blocked j s = blocked i s

/-- The packet of a well-formed command: its words, then a payload of which each shorter part leaves the decoder
waiting (R71, R83). -/
theorem encode_command {i : Instr} {o : Opcode} (hi : commandOf i = some o) (hw : i.wf = true) :
    ∃ (operands : List Word) (payload : List Byte),
      encode i = .packet (packetBytes o operands payload) ∧ 8 * (1 + operands.length) = headBytes o ∧
      ∀ part : List Byte, part.length < payload.length →
        DecodesToPartOf i (decodeOperands o (headOf o operands ++ part) part) := by
  cases i <;> cases hi
  case init seed1 seed2 => exact ⟨[seed1, seed2], [], rfl, rfl, fun _ h => absurd h (Nat.not_lt_zero _)⟩
  case final => exact ⟨[], [], rfl, rfl, fun _ h => absurd h (Nat.not_lt_zero _)⟩
  case update len payload =>
    refine ⟨[len], payload, rfl, rfl, fun part h => ⟨.update len part, ?_, fun _ => rfl⟩⟩
    rw [decodeOperands, packetWord_headOf_succ (k := 0) rfl, takePayload_of_shorter hw h]
  case hash128 seed1 seed2 len message =>
    refine ⟨[seed1, seed2, len], message, rfl, rfl,
      fun part h => ⟨.hash128 seed1 seed2 len part, ?_, fun _ => rfl⟩⟩
    rw [decodeOperands, packetWord_headOf_succ (k := 0) rfl, packetWord_headOf_succ (k := 1) rfl,
      packetWord_headOf_succ (k := 2) rfl, takePayload_of_shorter hw h]
  case hash64 seed len message =>
    refine ⟨[seed, len], message, rfl, rfl, fun part h => ⟨.hash64 seed len part, ?_, fun _ => rfl⟩⟩
    rw [decodeOperands, packetWord_headOf_succ (k := 0) rfl, packetWord_headOf_succ (k := 1) rfl,
      takePayload_of_shorter hw h]
  case hash32 seed32 len message =>
    refine ⟨[zext64 seed32, len], message, rfl, rfl,
      fun part h => ⟨.hash32 (low32 (zext64 seed32)) len part, ?_, fun _ => rfl⟩⟩
    rw [decodeOperands, packetWord_headOf_succ (k := 0) rfl, packetWord_headOf_succ (k := 1) rfl, seedHigh_zext64,
      if_neg (not_not.mpr rfl), takePayload_of_shorter hw h]

/-- Only a command is encoded as a packet (R22, R91). -/
theorem exists_commandOf_of_encode_packet {i : Instr} {bytes : List Byte} (h : encode i = .packet bytes) :
    ∃ o, commandOf i = some o := by
  cases hi : commandOf i with
  | some o => exact ⟨o, rfl⟩
  | none => cases i <;> cases hi <;> cases h

/-- A proper front part of a well-formed packet holds less than a header, less than its words, or less than its payload
(R71, R86). -/
theorem decodePacket_front {i : Instr} {front back : List Byte} (hw : i.wf = true)
    (he : encode i = .packet (front ++ back)) (hback : back ≠ []) :
    decodePacket front = .noHeader ∨ (∃ opc, decodePacket front = .shortWords opc) ∨
      DecodesToPartOf i (decodePacket front) := by
  obtain ⟨o, hi⟩ := exists_commandOf_of_encode_packet he
  obtain ⟨operands, payload, henc, hwords, hpart⟩ := encode_command hi hw
  have hcut : front ++ back = headOf o operands ++ payload :=
    (Code.packet.inj (he.symm.trans henc)).trans (packetBytes_eq o operands payload)
  by_cases hlt : front.length < headBytes o
  · exact (decodePacket_of_lt_headBytes hcut hlt).imp_right fun h => .inl ⟨_, h⟩
  · have hle : (headOf o operands).length ≤ front.length := by rw [headOf_length, hwords]; exact Nat.le_of_not_lt hlt
    obtain ⟨part, rfl⟩ : headOf o operands <+: front :=
      List.prefix_of_prefix_length_le ⟨payload, hcut.symm⟩ (List.prefix_append front back) hle
    rw [List.append_assoc, List.append_cancel_left_eq] at hcut
    have hshort : part.length < payload.length := by
      rw [← hcut, List.length_append]
      exact Nat.lt_add_of_pos_right (List.length_pos_iff.mpr hback)
    rw [decodePacket_headOf hwords]
    exact .inr (.inr (hpart part hshort))

end Sys2Proof.Machine

/-! PROOFS. The engine waits for the rest of a packet (spec R71, R90, R272). -/

namespace Sys2Proof.Machine

/-- With a front part of a packet that it neither refuses nor faults, the engine waits for the rest (R71, R90). -/
theorem takePacket_front {i : Instr} {front back : List Byte} {s : State} (hw : i.wf = true)
    (he : encode i = .packet (front ++ back)) (hfront : front ≠ []) (hback : back ≠ []) (hf : s.fault = 0)
    (hb : blocked i s = none) (later : List HostInput) : takePacket front later s = await front later s := by
  obtain h | ⟨opc, h⟩ | ⟨j, h, hj⟩ := decodePacket_front hw he hback
  · simp only [takePacket, h, List.length_eq_zero_iff, if_neg hfront]
  · simp only [takePacket, h, if_neg (not_not.mpr hf)]
  · have hwaits : answersEarly j s = false := by simp [answersEarly, hf, hj, hb]
    simp only [takePacket, h, hwaits, Bool.false_eq_true, if_false]

/-- Settles O46: a proper front part of the packet makes the engine wait (`takePacket_front`), and `await` says
for what. -/
theorem incompletePacketHasNoStep : Obligations.IncompletePacketHasNoStep := by
  intro i front back s hw he hfront hback hf hb hc
  have hwait : ∀ later, s.commandPort = .sent front :: later → nextAction s = await front later s :=
    fun later hp => (nextAction_sent hc hp).trans (takePacket_front hw he hfront hback hf hb later)
  refine ⟨fun hp => ?_, fun more later hp => ?_, fun later hp => ?_⟩
  · rw [step, hwait _ hp, await]
  · rw [step, hwait _ hp, await, State.setPort]
  · refine ⟨applyReset (s.setPort later), by rw [step, hwait _ hp, await], ?_⟩
    simp [hc]

end Sys2Proof.Machine

/-! PROOFS. Words and their bytes, both ways (spec R81, R82, R84, R112). -/

namespace Sys2Proof.Machine

theorem byteOf_toNat (v : Word) (j : Nat) : (byteOf v j).toNat = v.toNat / 2 ^ (8 * j) % 2 ^ 8 := by
  rw [byteOf, BitVec.extractLsb'_toNat, Nat.shiftRight_eq_div_pow]

/-- Byte strings of one length with the same little-endian sum are equal. -/
theorem leNat_injective {bs cs : List Byte} (hl : bs.length = cs.length) (h : leNat bs = leNat cs) : bs = cs := by
  induction bs generalizing cs with
  | nil => exact (List.length_eq_zero_iff.mp hl.symm).symm
  | cons b bs ih =>
    obtain ⟨c, cs, rfl⟩ := List.exists_cons_of_length_pos (l := cs) (by rw [← hl]; exact Nat.succ_pos _)
    have hb := b.isLt
    have hc := c.isLt
    simp only [leNat_cons] at h
    have hhead : b = c := BitVec.eq_of_toNat_eq (by omega)
    have htail : bs = cs := ih (Nat.succ.inj hl) (by omega)
    rw [hhead, htail]

/-- Encoding undoes decoding (R112). -/
theorem enc64_le64 {b : List Byte} (h : b.length = 8) : enc64 (le64 b) = b := by
  refine leNat_injective ((enc64_length _).trans h.symm) ?_
  rw [← le64_toNat _ (enc64_length _).le, ← le64_toNat _ h.le, le64_enc64]

/-- A word of a packet is encoded by the eight bytes it was read from (R81). -/
theorem enc64_packetWord {bytes : List Byte} {k : Nat} (h : 8 * k + 8 ≤ bytes.length) :
    enc64 (packetWord bytes k) = slice bytes (8 * k) (8 * k + 8) :=
  enc64_le64 ((slice_length _ _ _ h).trans (Nat.add_sub_cancel_left _ _))

/-- The first words of a packet are encoded by its first bytes. -/
theorem flatMap_enc64_packetWord {bytes : List Byte} {n : Nat} (h : 8 * n ≤ bytes.length) :
    ((List.range n).map (packetWord bytes)).flatMap enc64 = bytes.take (8 * n) := by
  induction n with
  | zero => rfl
  | succ n ih =>
    rw [List.range_succ, List.map_append, List.flatMap_append, ih (by omega), List.map_singleton,
      List.flatMap_singleton, enc64_packetWord h, slice, Nat.add_sub_cancel_left, ← List.take_add]
    rfl

/-- A byte of a packet is a byte of the word it stands in (R81). -/
theorem byteOf_packetWord {bytes : List Byte} {k j : Nat} (h : 8 * k + 8 ≤ bytes.length) (hj : j < 8) :
    byteOf (packetWord bytes k) j = bytes.getD (8 * k + j) 0 := by
  have hbyte : (enc64 (packetWord bytes k)).getD j 0 = byteOf (packetWord bytes k) j := by
    simp [enc64, hj]
  rw [← hbyte, enc64_packetWord h]
  simp [slice, List.getElem?_drop, hj]

/-- A byte that lies in a field of zeros is zero. -/
theorem byteOf_eq_zero_of_field {w : Word} {start len j : Nat} (h : w.extractLsb' start len = 0)
    (hlo : start ≤ 8 * j) (hhi : 8 * j + 8 ≤ start + len) : byteOf w j = 0 := by
  apply BitVec.eq_of_getLsbD_eq
  intro i hi
  have hbit : (w.extractLsb' start len).getLsbD (8 * j + i - start) = w.getLsbD (8 * j + i) := by
    rw [BitVec.getLsbD_extractLsb', decide_eq_true (by omega), Bool.true_and]
    congr 1
    omega
  rw [byteOf, BitVec.getLsbD_extractLsb', decide_eq_true hi, Bool.true_and, ← hbit, h]
  simp

/-- `OPC` and `RSV = 0` fix the header word (R82). -/
theorem eq_headerWord {w0 : Word} {o : Opcode} (hopc : headerOpc w0 = opcodeByte o) (hrsv : headerRsv w0 = 0) :
    w0 = headerWord o := by
  have hlow := congrArg BitVec.toNat hopc
  have hhigh := congrArg BitVec.toNat hrsv
  have hw := w0.isLt
  have ho := (opcodeByte o).isLt
  apply BitVec.eq_of_toNat_eq
  simp only [headerOpc, headerRsv, headerWord, BitVec.toNat_setWidth, BitVec.extractLsb'_toNat,
    Nat.shiftRight_eq_div_pow, BitVec.ofNat_eq_ofNat, BitVec.toNat_ofNat] at hlow hhigh ⊢
  omega

@[simp] theorem low32_zext64 (v : BitVec 32) : low32 (zext64 v) = v := by
  simp [low32, zext64]

/-- A seed word whose upper half is 0 is its lower half zero-extended (R84). -/
theorem zext64_low32 {w : Word} (h : seedHigh w = 0) : zext64 (low32 w) = w := by
  have hhigh := congrArg BitVec.toNat h
  have hw := w.isLt
  apply BitVec.eq_of_toNat_eq
  simp only [seedHigh, zext64, low32, BitVec.toNat_setWidth, BitVec.extractLsb'_toNat,
    Nat.shiftRight_eq_div_pow, BitVec.ofNat_eq_ofNat, BitVec.toNat_ofNat] at hhigh ⊢
  omega

end Sys2Proof.Machine

/-! PROOFS. Decoding undoes encoding (spec R81 to R86, R91). -/

namespace Sys2Proof.Machine

/-- The payload of a well-formed command is all there, whatever follows it (R71, R86). -/
theorem takePayload_append {len : Word} {payload : List Byte} (hw : payloadOk len payload = true) (rest : List Byte)
    (mk : List Byte → Instr) : takePayload len (payload ++ rest) mk = .instr (mk payload) rest := by
  have hlen : payload.length = len.toNat := beq_iff_eq.mp hw
  rw [takePayload, if_neg (by rw [List.length_append]; omega), List.take_left' hlen, List.drop_left' hlen]

/-- The words and the whole payload of a well-formed command decode to it (R83, R84). -/
theorem decodeOperands_headOf {i : Instr} {o : Opcode} (hi : commandOf i = some o) (hw : i.wf = true) :
    ∃ (operands : List Word) (payload : List Byte),
      encode i = .packet (packetBytes o operands payload) ∧ 8 * (1 + operands.length) = headBytes o ∧
      ∀ rest : List Byte,
        decodeOperands o (headOf o operands ++ (payload ++ rest)) (payload ++ rest) = .instr i rest := by
  cases i <;> cases hi
  case init seed1 seed2 =>
    refine ⟨[seed1, seed2], [], rfl, rfl, fun rest => ?_⟩
    rw [decodeOperands, packetWord_headOf_succ (k := 0) rfl, packetWord_headOf_succ (k := 1) rfl, List.nil_append]
  case update len payload =>
    refine ⟨[len], payload, rfl, rfl, fun rest => ?_⟩
    rw [decodeOperands, packetWord_headOf_succ (k := 0) rfl, takePayload_append hw]
  case final => exact ⟨[], [], rfl, rfl, fun rest => rfl⟩
  case hash128 seed1 seed2 len message =>
    refine ⟨[seed1, seed2, len], message, rfl, rfl, fun rest => ?_⟩
    rw [decodeOperands, packetWord_headOf_succ (k := 0) rfl, packetWord_headOf_succ (k := 1) rfl,
      packetWord_headOf_succ (k := 2) rfl, takePayload_append hw]
  case hash64 seed len message =>
    refine ⟨[seed, len], message, rfl, rfl, fun rest => ?_⟩
    rw [decodeOperands, packetWord_headOf_succ (k := 0) rfl, packetWord_headOf_succ (k := 1) rfl,
      takePayload_append hw]
  case hash32 seed32 len message =>
    refine ⟨[zext64 seed32, len], message, rfl, rfl, fun rest => ?_⟩
    rw [decodeOperands, packetWord_headOf_succ (k := 0) rfl, packetWord_headOf_succ (k := 1) rfl, seedHigh_zext64,
      if_neg (not_not.mpr rfl), takePayload_append hw, low32_zext64]

/-- The packet of a well-formed instruction decodes to it, and what follows is left over (R86). -/
theorem decodePacket_encode {i : Instr} {packet : List Byte} (hw : i.wf = true) (he : encode i = .packet packet)
    (rest : List Byte) : decodePacket (packet ++ rest) = .instr i rest := by
  obtain ⟨o, hi⟩ := exists_commandOf_of_encode_packet he
  obtain ⟨operands, payload, henc, hwords, hdec⟩ := decodeOperands_headOf hi hw
  obtain rfl : packet = packetBytes o operands payload := Code.packet.inj (he.symm.trans henc)
  rw [packetBytes_eq, List.append_assoc, decodePacket_headOf hwords]
  exact hdec rest

/-- The words of an array, read from among others. -/
theorem wordsFrom_append {n k : Nat} {front : List Word} (hk : front.length = k) (v : Vector Word n)
    (back : List Word) : wordsFrom (front ++ (v.toList ++ back)) k n = v := by
  subst hk
  apply Vector.ext
  intro i hi
  simp [wordsFrom, List.getElem?_append_right (Nat.le_add_right front.length i), List.getElem?_append_left, hi]

/-- Two arrays of operand words, one after the other, are read back (R91). -/
theorem wordsFrom_toList_append {n m : Nat} (v : Vector Word n) (w : Vector Word m) :
    wordsFrom (v.toList ++ w.toList) 0 n = v ∧ wordsFrom (v.toList ++ w.toList) n m = w := by
  refine ⟨wordsFrom_append (front := []) rfl v w.toList, ?_⟩
  have hw := wordsFrom_append (v.length_toList) w []
  rwa [List.append_nil] at hw

theorem wordsFrom_toList {n : Nat} (v : Vector Word n) : wordsFrom v.toList 0 n = v := by
  have hv := wordsFrom_append (front := []) rfl v []
  rwa [List.nil_append, List.append_nil] at hv

/-- A unit call with the operands of its signature is decoded by its code (R91). -/
theorem decodeCall_of_operands {c : UnitCall} (hu : uopWords c.uop ≠ 0) (hl : c.words.length = uopWords c.uop)
    (hm : messageOk c = true) : decodeCall c = decodeUnit c := by
  rw [decodeCall, if_neg hu, if_pos (by rw [hm, Bool.and_true]; exact decide_eq_true hl)]

/-- The call of a well-formed unit operation has the operands of its signature (R91, R165). -/
theorem operands_of_encode_call {i : Instr} {c : UnitCall} (hw : i.wf = true) (he : encode i = .call c) :
    uopWords c.uop ≠ 0 ∧ c.words.length = uopWords c.uop ∧ messageOk c = true := by
  cases i <;> cases he
  case short message seed1 seed2 => exact ⟨Nat.succ_ne_zero _, rfl, hw⟩
  all_goals exact ⟨Nat.succ_ne_zero _, by simp [uopWords], rfl⟩

/-- The call of a well-formed unit operation decodes to it (R91). -/
theorem decodeCall_encode {i : Instr} {c : UnitCall} (hw : i.wf = true) (he : encode i = .call c) :
    decodeCall c = .instr i [] := by
  obtain ⟨hcode, hlen, hmessage⟩ := operands_of_encode_call hw he
  rw [decodeCall_of_operands hcode hlen hmessage]
  cases i <;> cases he
  case mix data state =>
    obtain ⟨hdata, hstate⟩ := wordsFrom_toList_append data state
    exact congrArg₂ (fun d s => Decoded.instr (.mix d s) []) hdata hstate
  case endPartial state => exact congrArg (fun s => Decoded.instr (.endPartial s) []) (wordsFrom_toList state)
  case endHash data state =>
    obtain ⟨hdata, hstate⟩ := wordsFrom_toList_append data state
    exact congrArg₂ (fun d s => Decoded.instr (.endHash d s) []) hdata hstate
  case shortMix h => exact congrArg (fun w => Decoded.instr (.shortMix w) []) (wordsFrom_toList h)
  case shortEnd h => exact congrArg (fun w => Decoded.instr (.shortEnd w) []) (wordsFrom_toList h)
  case short message seed1 seed2 => rfl
  case expand seed1 seed2 => rfl

/-- Settles O56: a command's packet by `decodePacket_encode`, a unit operation's call by `decodeCall_encode`. -/
theorem decodeOfEncodeIsTheInstruction : Obligations.DecodeOfEncodeIsTheInstruction := by
  intro i hw
  refine ⟨?_, fun packet rest he => decodePacket_encode hw he rest⟩
  cases he : encode i with
  | packet packet =>
    have h := decodePacket_encode hw he []
    rwa [List.append_nil] at h
  | call c => exact decodeCall_encode hw he

end Sys2Proof.Machine

/-! PROOFS. Encoding undoes decoding on the command port (spec R83, R85, R89). -/

namespace Sys2Proof.Machine

/-- The operand words of a command, as its packet holds them (R83). -/
def operandWords (o : Opcode) (bytes : List Byte) : List Word :=
  (List.range' 1 (formatWords (opcodeFormat o) - 1)).map (packetWord bytes)

/-- A packet's bytes are its header's, its operand words' and what stands behind its words (R81, R83). -/
theorem eq_headOf_append {o : Opcode} {bytes : List Byte} (hl : headBytes o ≤ bytes.length)
    (hheader : packetWord bytes 0 = headerWord o) :
    bytes = headOf o (operandWords o bytes) ++ bytes.drop (headBytes o) := by
  have hwords : headerWord o :: operandWords o bytes =
      (List.range (formatWords (opcodeFormat o))).map (packetWord bytes) := by
    rw [← hheader]
    cases o <;> rfl
  rw [headOf, hwords, flatMap_enc64_packetWord hl]
  exact (List.take_append_drop ..).symm

/-- What a payload that is all there decodes to, and where its bytes stand (R83). -/
theorem takePayload_eq_instr {len : Word} {body rest : List Byte} {mk : List Byte → Instr} {i : Instr}
    (h : takePayload len body mk = .instr i rest) : ∃ payload, i = mk payload ∧ body = payload ++ rest := by
  obtain ⟨_, e⟩ | ⟨_, e⟩ := takePayload_cases len body mk
  · exact Decoded.noConfusion (e.symm.trans h)
  · obtain ⟨rfl, rfl⟩ := Decoded.instr.inj (e.symm.trans h)
    exact ⟨_, rfl, (List.take_append_drop ..).symm⟩

/-- The operands of a command that decodes are those its code holds (R83, R84). -/
theorem encode_of_decodeOperands {o : Opcode} {bytes body rest : List Byte} {i : Instr}
    (h : decodeOperands o bytes body = .instr i rest) :
    ∃ payload, encode i = .packet (packetBytes o (operandWords o bytes) payload) ∧ body = payload ++ rest := by
  have hpayload : ∀ (len : Word) (mk : List Byte → Instr), takePayload len body mk = .instr i rest →
      (∀ p, encode (mk p) = .packet (packetBytes o (operandWords o bytes) p)) →
      ∃ payload, encode i = .packet (packetBytes o (operandWords o bytes) payload) ∧ body = payload ++ rest := by
    intro len mk ht hmk
    obtain ⟨payload, rfl, hbody⟩ := takePayload_eq_instr ht
    exact ⟨payload, hmk payload, hbody⟩
  cases o with
  | init =>
    obtain ⟨rfl, rfl⟩ := Decoded.instr.inj h
    exact ⟨[], rfl, rfl⟩
  | update => exact hpayload _ _ h fun _ => rfl
  | final =>
    obtain ⟨rfl, rfl⟩ := Decoded.instr.inj h
    exact ⟨[], rfl, rfl⟩
  | hash128 => exact hpayload _ _ h fun _ => rfl
  | hash64 => exact hpayload _ _ h fun _ => rfl
  | hash32 =>
    rw [decodeOperands] at h
    split at h
    · exact Decoded.noConfusion h
    · next hseed =>
      refine hpayload _ _ h fun p => ?_
      rw [encode, zext64_low32 (not_not.mp hseed)]
      rfl

/-- What a packet that decodes has passed: the tests of R90 on its header, and on its words. -/
theorem decodePacket_eq_instr {bytes rest : List Byte} {i : Instr} (h : decodePacket bytes = .instr i rest) :
    ∃ o, headBytes o ≤ bytes.length ∧ packetWord bytes 0 = headerWord o ∧
      decodeOperands o bytes (bytes.drop (headBytes o)) = .instr i rest := by
  cases decodePacket_cases bytes
  case instr o r j rest' hb hr hs hc hw hd =>
    subst hb
    rw [decodePacket_legal o r hr] at h
    split at h
    · exact Decoded.noConfusion h
    · next hl =>
      split at h
      · exact Decoded.noConfusion h
      · next hrsv =>
        exact ⟨o, Nat.le_of_not_lt hl, eq_headerWord (headerOpc_cons _ _ hr) (not_not.mp hrsv), h⟩
  all_goals next hd => exact Decoded.noConfusion (hd.symm.trans h)

/-- Settles O57: the words of the packet are encoded by its first bytes (`eq_headOf_append`), and the payload follows
them (`encode_of_decodeOperands`). -/
theorem decodedPacketsAreTheirEncodings : Obligations.DecodedPacketsAreTheirEncodings := by
  intro bytes rest i h
  obtain ⟨o, hl, hheader, hoperands⟩ := decodePacket_eq_instr h
  obtain ⟨payload, henc, hbody⟩ := encode_of_decodeOperands hoperands
  refine ⟨wf_of_decodePacket_instr h, _, henc, ?_⟩
  rw [packetBytes_eq, List.append_assoc, ← hbody]
  exact eq_headOf_append hl hheader

theorem packetBytes_length (o : Opcode) (operands : List Word) (payload : List Byte) :
    (packetBytes o operands payload).length = 8 * (1 + operands.length) + payload.length := by
  rw [packetBytes_eq, List.length_append, headOf_length]

/-- Settles O58: `packetBytes_length` for the operand words of each format. -/
theorem packetSizesFollowTheFormats : Obligations.PacketSizesFollowTheFormats := by
  intro seed1 seed2 seed len seed32 m hm
  rw [← hm]
  exact ⟨_, _, _, _, _, _, rfl, packetBytes_length .final [] [], rfl, packetBytes_length .init [seed1, seed2] [],
    rfl, packetBytes_length .update [len] m, rfl, packetBytes_length .hash128 [seed1, seed2, len] m,
    rfl, packetBytes_length .hash64 [seed, len] m, rfl, packetBytes_length .hash32 [zext64 seed32, len] m⟩

end Sys2Proof.Machine

/-! PROOFS. The packets that raise a fault: illegal opcode, reserved field, and the faults that do not wait for a
payload (spec R89, R90, R241 to R244). -/

namespace Sys2Proof.Machine

/-! ### What the decoder answers -/

/-- An illegal opcode is answered from the header alone (R89 (a)). -/
theorem decodePacket_illegal {opc : Byte} {r : List Byte} (hr : 7 ≤ r.length) (ho : opcodeOf opc = none) :
    decodePacket (opc :: r) = .illegalOpcode opc := by
  have hl : ¬ (opc :: r).length < 8 := by rw [List.length_cons]; omega
  simp only [decodePacket, if_neg hl, headerOpc_cons _ _ hr, ho]

/-- A byte that is none of the six opcodes is no command's (R85). -/
theorem opcodeOf_eq_none {opc : Byte} (h : ∀ o : Opcode, opcodeByte o ≠ opc) : opcodeOf opc = none := by
  cases ho : opcodeOf opc with
  | none => rfl
  | some o => exact absurd (opcodeOf_eq_some ho).symm (h o)

/-- The field tests of a packet, `RSV` and HASH32's seed word, of which one fails (R89 (b), (c)). -/
abbrev FieldFails (o : Opcode) (bytes : List Byte) : Prop :=
  headerRsv (packetWord bytes 0) ≠ 0 ∨ (o = .hash32 ∧ seedHigh (packetWord bytes 1) ≠ 0)

/-- A packet of a legal opcode with all its words and a field that fails is answered before its payload (R90). -/
theorem decodePacket_reservedField {o : Opcode} {r : List Byte} (hr : 7 ≤ r.length)
    (hl : headBytes o ≤ (opcodeByte o :: r).length) (hfield : FieldFails o (opcodeByte o :: r)) :
    decodePacket (opcodeByte o :: r) =
      .reservedField (opcodeByte o)
        (((opcodeByte o :: r).drop (headBytes o)).drop (announced o (opcodeByte o :: r))) := by
  rw [decodePacket_legal o r hr, if_neg (Nat.not_lt.mpr hl)]
  by_cases hrsv : headerRsv (packetWord (opcodeByte o :: r) 0) = 0
  · obtain ⟨rfl, hseed⟩ := hfield.resolve_left (not_not.mpr hrsv)
    rw [if_neg (not_not.mpr hrsv), decodeOperands, if_pos hseed]
  · rw [if_pos hrsv]

/-- A byte of a reserved field is not 0: of bytes 1 to 7, which are `RSV`, or of bytes 12 to 15, the upper half of
HASH32's seed word (R81, R82, R84). -/
abbrev ReservedByteSet (o : Opcode) (bytes : List Byte) : Prop :=
  (∃ j, 1 ≤ j ∧ j < 8 ∧ bytes.getD j 0 ≠ 0) ∨ (o = .hash32 ∧ ∃ j, 12 ≤ j ∧ j < 16 ∧ bytes.getD j 0 ≠ 0)

/-- The bytes of a reserved field are bytes of the word that is tested. -/
theorem fieldFails_of_reservedByteSet {o : Opcode} {bytes : List Byte} (hl : headBytes o ≤ bytes.length)
    (h : ReservedByteSet o bytes) : FieldFails o bytes := by
  obtain ⟨j, hj1, hj8, hbyte⟩ | ⟨rfl, j, hj12, hj16, hbyte⟩ := h
  · refine .inl fun hzero => hbyte ?_
    have hword : byteOf (packetWord bytes 0) j = bytes.getD (8 * 0 + j) 0 :=
      byteOf_packetWord ((eight_le_headBytes o).trans hl) hj8
    rw [Nat.mul_zero, Nat.zero_add] at hword
    rw [← hword]
    exact byteOf_eq_zero_of_field hzero (by omega) (by omega)
  · refine .inr ⟨rfl, fun hzero => hbyte ?_⟩
    have hl : 24 ≤ bytes.length := hl
    obtain ⟨k, rfl⟩ := Nat.exists_eq_add_of_le (show 8 ≤ j by omega)
    have hword : byteOf (packetWord bytes 1) k = bytes.getD (8 * 1 + k) 0 := byteOf_packetWord (by omega) (by omega)
    rw [← hword]
    exact byteOf_eq_zero_of_field hzero (by omega) (by omega)

/-! ### What the step answers -/

section

variable {s : State} {later : List HostInput}

/-- Without a fault recorded, a packet that is no command raises its fault (R90). -/
theorem step_of_reject {bytes : List Byte} {port : List HostInput} {c : BitVec 8} {opc : Byte} (hf : s.fault = 0)
    (hc : s.unitCalls = []) (hp : s.commandPort = .sent bytes :: later)
    (h : takePacket bytes later s = .become (reject c opc (s.setPort port))) :
    step s = .next (raise c opc (s.setPort port)) := by
  have hraise : reject c opc (s.setPort port) = raise c opc (s.setPort port) := if_neg (not_not.mpr hf)
  rw [step, nextAction_sent hc hp, h, hraise]

/-- Fault 1 takes the whole transfer (log 11). -/
theorem step_illegalOpcode {opc : Byte} {bytes : List Byte} (hf : s.fault = 0) (hc : s.unitCalls = [])
    (hp : s.commandPort = .sent bytes :: later) (hd : decodePacket bytes = .illegalOpcode opc) :
    step s = .next (raise 1 opc (s.setPort later)) :=
  step_of_reject (c := faultIllegalOpcode) hf hc hp (by rw [takePacket, hd])

/-- Fault 2 takes what is there of its packet (log 11). -/
theorem step_reservedField {opc : Byte} {bytes rest : List Byte} (hf : s.fault = 0) (hc : s.unitCalls = [])
    (hp : s.commandPort = .sent bytes :: later) (hd : decodePacket bytes = .reservedField opc rest) :
    step s = .next (raise 2 opc (s.setPort (remaining rest later))) :=
  step_of_reject (c := faultReservedField) hf hc hp (by rw [takePacket, hd])

/-- A transfer that holds all words of a packet, no more than the packet, and a reserved byte that is not 0 raises
fault 2, in either phase (R89 (b), (c), R90). -/
theorem step_reservedByte {o : Opcode} {r : List Byte} (hf : s.fault = 0) (hc : s.unitCalls = [])
    (hp : s.commandPort = .sent (opcodeByte o :: r) :: later) (hl : headBytes o ≤ (opcodeByte o :: r).length)
    (hle : (opcodeByte o :: r).length ≤ headBytes o + announced o (opcodeByte o :: r))
    (h : ReservedByteSet o (opcodeByte o :: r)) : step s = .next (raise 2 (opcodeByte o) (s.setPort later)) := by
  have hr : 7 ≤ r.length := Nat.le_of_succ_le_succ ((eight_le_headBytes o).trans hl)
  have hd := decodePacket_reservedField hr hl (fieldFails_of_reservedByteSet hl h)
  rw [List.drop_drop, List.drop_eq_nil_of_le hle] at hd
  exact step_reservedField hf hc hp hd

/-- A command that the state tests block raises their fault, its payload all there or not (R90). -/
theorem command_blocked {o : Opcode} {c : BitVec 8} {complete : Bool} {effect : State} (hf : s.fault = 0) :
    command o (some c) complete effect s = .next (raise c (opcodeByte o) s) := by simp [command, hf]

/-- A command that the state tests block does not wait for its payload (R90). -/
theorem step_blocked {bytes : List Byte} {i : Instr} {o : Opcode} {c : BitVec 8} (hf : s.fault = 0)
    (hc : s.unitCalls = []) (hp : s.commandPort = .sent bytes :: later) (hd : decodePacket bytes = .shortPayload i)
    (hi : commandOf i = some o) (hb : blocked i s = some c) :
    step s = .next (raise c (opcodeByte o) (s.setPort later)) := by
  have hearly : answersEarly i s = true := by simp [answersEarly, hb]
  have htake : takePacket bytes later s = .run i (s.setPort later) := by
    simp only [takePacket, hd, hearly, if_true]
  obtain ⟨effect, hexec⟩ := exec_eq_command hi (s.setPort later)
  rw [step_of_run ((nextAction_sent hc hp).trans htake), hexec, blocked_setPort, hb]
  exact command_blocked hf

/-- UPDATE in UNINIT (R243). -/
theorem updateFault_of_uninit (len : Word) (hphase : s.phase = .uninit) : updateFault len s = some 3 := by
  simp [updateFault, phaseFault, hphase, faultUninitialised]

/-- UPDATE in READY of more bytes than LENGTH can count (R244). -/
theorem updateFault_of_overflow {len : Word} (hphase : s.phase = .ready) (hpos : 0 < len.toNat)
    (h : 2 ^ 64 ≤ s.length.toNat + len.toNat) : updateFault len s = some 4 := by
  have hlen : len ≠ 0 := by
    rintro rfl
    exact absurd hpos (Nat.lt_irrefl 0)
  rw [updateFault, phaseFault_eq_none.mpr hphase, overflowFault]
  exact if_pos ⟨hlen, h⟩

end

/-- UPDATE with bytes of its payload missing (R71, R83). -/
theorem decodePacket_short_update {len : Word} {part : List Byte} (h : part.length < len.toNat) :
    decodePacket (enc64 0x02 ++ enc64 len ++ part) = .shortPayload (.update len part) := by
  have hhead : enc64 0x02 ++ enc64 len = headOf .update [len] := rfl
  rw [hhead, decodePacket_headOf rfl, decodeOperands, packetWord_headOf_succ (k := 0) rfl]
  exact if_pos h

/-- Settles O39: the decoder rejects the header, and the step raises fault 1 (`step_illegalOpcode`). -/
theorem illegalOpcodeFaults : Obligations.IllegalOpcodeFaults := by
  intro opc bytes later s hf hc hp hr ho
  have hd : decodePacket (opc :: bytes) = .illegalOpcode opc := decodePacket_illegal hr (opcodeOf_eq_none ho)
  rw [step_illegalOpcode hf hc hp hd, raise_eq]
  rfl

/-- Settles O40: `step_reservedByte`, with the reserved bytes counted from the byte after the opcode. -/
theorem reservedFieldFaultsBeforeThePhase : Obligations.ReservedFieldFaultsBeforeThePhase := by
  intro o bytes later s hf hc hp hl h
  have hbyte : ReservedByteSet o (opcodeByte o :: bytes) := by
    obtain ⟨j, hj, hne⟩ | ⟨ho, j, hj11, hj15, hne⟩ := h
    · exact .inl ⟨j + 1, by omega, by omega, hne⟩
    · exact .inr ⟨ho, j + 1, by omega, by omega, hne⟩
  rw [step_reservedByte hf hc hp (hl ▸ Nat.le_add_right ..) hl.le hbyte, raise_eq]
  rfl

/-- Settles O47: fault 2 by `step_reservedByte`; faults 3 and 4 by `step_blocked`, since UPDATE without all its bytes is
decoded with those there are. -/
theorem faultsDoNotWaitForThePayload : Obligations.FaultsDoNotWaitForThePayload := by
  refine ⟨fun o bytes later s hf hc hp hhead hl hlt h => ?_, fun len part later s hf hc hlt hp => ?_⟩
  · obtain ⟨r, rfl⟩ := List.head?_eq_some_iff.mp hhead
    rw [step_reservedByte hf hc hp hl hlt.le h, raise_eq]
    rfl
  · have hblocked : ∀ c, updateFault len s = some c → step s = .next (raise c 0x02 (s.setPort later)) :=
      fun c hb => step_blocked hf hc hp (decodePacket_short_update hlt) rfl hb
    refine ⟨fun huninit => ?_, fun hready hover => ?_⟩
    · rw [hblocked 3 (updateFault_of_uninit len huninit), raise_eq]
      rfl
    · rw [hblocked 4 (updateFault_of_overflow hready (Nat.zero_lt_of_lt hlt) hover), raise_eq]
      rfl

end Sys2Proof.Machine

/-! PROOFS. Responses and unit calls (spec R22, R81, R87, R88, R91). -/

namespace Sys2Proof.Machine

/-! ### Responses -/

/-- A command that takes effect sends one response, with its opcode as ECHO and STATUS 0 (R87). -/
theorem CommandEffect.responsePort {i : Instr} {o : Opcode} {s t : State} (h : CommandEffect i o s t) :
    ∃ results, t.responsePort = s.responsePort ++ [⟨0, opcodeByte o, results⟩] := by
  cases h with
  | init seed1 seed2 hi ho ht => subst ho ht; exact ⟨[], initEffect_responsePort ..⟩
  | update len payload hi ho hl ht => subst ho ht; exact ⟨[], updateEffect_responsePort ..⟩
  | pure results ht => subst ht; exact ⟨results, rfl⟩

/-- Settles O50: of the things a step can have done (`step_cases`), a refusal, a fault and a command that took effect
answer the packet that is first on the port, and the others send nothing. -/
theorem oneResponseEchoesTheOpcode : Obligations.OneResponseEchoesTheOpcode := by
  intro bytes later s t hcalls hport h
  have hfront : ∀ {front : List Byte} {tail : List HostInput}, s.commandPort = .sent front :: tail → bytes = front :=
    fun hp => HostInput.sent.inj (List.cons.inj (hport.symm.trans hp)).1
  cases step_cases h with
  | unitCall c later' r hc ht => simp [hcalls] at hc
  | idle hc hp ht => subst ht; exact .inl rfl
  | reset later' hc hp ht => subst ht; exact .inl rfl
  | moved front later' port hc hp hn ht => subst ht; exact .inl rfl
  | refused opc r rest later' hc hp hs hf ht =>
    subst ht
    obtain rfl := hfront hp
    exact .inr ⟨_, rfl, rfl, fun _ => rfl⟩
  | raised opc r c rest later' hc hp hs hf hr ht =>
    subst ht
    obtain rfl := hfront hp
    exact .inr ⟨_, rfl, rfl, fun _ => rfl⟩
  | ran o r i rest later' hc hp hs hf hi hw hb hd ht =>
    obtain ⟨results, hsent⟩ := ht.responsePort
    obtain rfl := hfront hp
    exact .inr ⟨_, hsent, rfl, fun hstatus => absurd rfl hstatus⟩

/-- STATUS and ECHO do not overlap in word 0 (R87). -/
theorem word0_toNat (r : Response) : r.word0.toNat = r.status.toNat + 2 ^ 8 * r.echo.toNat := by
  have hs := r.status.isLt
  have he := r.echo.isLt
  have hshift : (r.echo.setWidth 64 <<< 8).toNat = 2 ^ 8 * r.echo.toNat := by
    rw [BitVec.toNat_shiftLeft, BitVec.toNat_setWidth, Nat.shiftLeft_eq]
    omega
  have hstatus : (r.status.setWidth 64).toNat = r.status.toNat := by
    rw [BitVec.toNat_setWidth]
    omega
  rw [Response.word0, BitVec.toNat_or, hshift, hstatus, Nat.or_comm, ← Nat.two_pow_add_eq_or_of_lt hs, Nat.add_comm]

/-- The first two bytes of word 0 (R81, R87). -/
theorem take_enc64_word0 (r : Response) : (enc64 r.word0).take 2 = [r.status, r.echo] := by
  have hs := r.status.isLt
  have he := r.echo.isLt
  have hstatus : byteOf r.word0 0 = r.status := by
    apply BitVec.eq_of_toNat_eq
    rw [byteOf_toNat, word0_toNat]
    omega
  have hecho : byteOf r.word0 1 = r.echo := by
    apply BitVec.eq_of_toNat_eq
    rw [byteOf_toNat, word0_toNat]
    omega
  calc (enc64 r.word0).take 2 = [byteOf r.word0 0, byteOf r.word0 1] := rfl
    _ = [r.status, r.echo] := by rw [hstatus, hecho]

/-- Settles O51: the sum is `word0_toNat`, and the bytes of a response are those of word 0 before the others. -/
theorem responseWordHoldsStatusAndEcho : Obligations.ResponseWordHoldsStatusAndEcho := by
  intro r
  refine ⟨word0_toNat r, ?_, ?_⟩
  · rw [Response.bytes, Response.words, List.flatMap_cons,
      List.take_append_of_le_length (by rw [enc64_length]; decide), take_enc64_word0]
  · rw [Response.bytes, flatMap_enc64_length, Response.words, List.length_cons, Nat.add_comm]

/-! ### Unit calls -/

/-- No command touches the model's own unit-call port or what it returned (R22). -/
theorem CommandEffect.unitPorts {i : Instr} {o : Opcode} {s t : State} (h : CommandEffect i o s t) :
    t.unitCalls = s.unitCalls ∧ t.unitReturns = s.unitReturns := by
  cases h with
  | init seed1 seed2 hi ho ht => subst ht; exact ⟨initEffect_unitCalls .., initEffect_unitReturns ..⟩
  | update len payload hi ho hl ht => subst ht; exact ⟨updateEffect_unitCalls .., updateEffect_unitReturns ..⟩
  | pure results ht => subst ht; exact ⟨rfl, rfl⟩

/-- With no unit call waiting, a step makes none and returns none (R22, R91). -/
theorem step_unitPorts {s t : State} (h : step s = .next t) (hcalls : s.unitCalls = []) :
    t.unitCalls = s.unitCalls ∧ t.unitReturns = s.unitReturns := by
  cases step_cases h with
  | unitCall c later r hc ht => simp [hcalls] at hc
  | idle hc hp ht => subst ht; exact ⟨rfl, rfl⟩
  | reset later hc hp ht => subst ht; exact ⟨rfl, rfl⟩
  | moved bytes later port hc hp hn ht => subst ht; exact ⟨rfl, rfl⟩
  | refused opc r rest later hc hp hs hf ht => subst ht; exact ⟨rfl, rfl⟩
  | raised opc r c rest later hc hp hs hf hr ht => subst ht; exact ⟨rfl, rfl⟩
  | ran o r i rest later hc hp hs hf hi hw hb hd ht => exact ht.unitPorts

/-- A step with a unit call waiting takes it and returns its value, and nothing else (R91). -/
theorem step_of_unitCall {s t : State} (h : step s = .next t) (hcalls : s.unitCalls ≠ []) :
    ∃ (later : List UnitCall) (r : UnitReturn), t = (s.setCalls later).returnUnit r := by
  cases step_cases h with
  | unitCall c later r hc ht => exact ⟨later, r, ht⟩
  | idle hc => exact absurd hc hcalls
  | reset later hc => exact absurd hc hcalls
  | moved bytes later port hc => exact absurd hc hcalls
  | refused opc r rest later hc => exact absurd hc hcalls
  | raised opc r c rest later hc => exact absurd hc hcalls
  | ran o r i rest later hc => exact absurd hc hcalls

/-- Settles O52: `step_unitPorts` when no unit call waits, `step_of_unitCall` when one does. -/
theorem unitCallsTouchNoRegister : Obligations.UnitCallsTouchNoRegister := by
  intro s t h
  refine ⟨fun hcalls => ?_, fun hcalls => ?_⟩
  · obtain ⟨hkept, hreturns⟩ := step_unitPorts h hcalls
    exact ⟨hkept.trans hcalls, hreturns⟩
  · obtain ⟨later, r, rfl⟩ := step_of_unitCall h hcalls
    exact ⟨⟨rfl, rfl, rfl, rfl, rfl⟩, rfl, rfl, rfl⟩

/-- Settles O45: the call is the first thing taken (`nextAction_call`), and what it decodes to is run. -/
theorem stepRunsTheUnitCall : Obligations.StepRunsTheUnitCall := by
  intro c later i s hc hd
  have hd : decodeCall c = .instr i [] := hd
  have htake : takeCall c later s = .run i (s.setCalls later) := by rw [takeCall, hd]
  exact ⟨(decodeCall_instr hd).2, step_of_run ((nextAction_call hc).trans htake)⟩

/-- The unused codes have no operands (R91). -/
theorem uopWords_eq_zero : ∀ uop : BitVec 4, uop = 0 ∨ 8 ≤ uop.toNat → uopWords uop = 0 := by decide

/-- Settles O49: an unused code has no operands (`uopWords_eq_zero`), which the decoder of unit calls tests first. -/
theorem unusedUnitCodesAreRefused : Obligations.UnusedUnitCodesAreRefused := by
  intro c later s hc hu
  have hd : decodeCall c = .unusedUop c.uop := if_pos (uopWords_eq_zero c.uop hu)
  rw [step, nextAction_call hc, takeCall, hd]

end Sys2Proof.Machine

/-! PROOFS. The words of the opcode table, and codes written out (spec R81 to R85, R89, R91). -/

namespace Sys2Proof.Machine

/-- A row of the opcode table laid out as an instruction's code decodes to it. -/
theorem decodeTableWord_of_encode {nbits w : Nat} {i : Instr} (h : tableCode nbits w = encode i) (hw : i.wf = true) :
    decodeTableWord nbits w = some i := by
  obtain ⟨hd, _⟩ := decodeOfEncodeIsTheInstruction i hw
  rw [decodeTableWord, h, hd]

/-- Settles O59: each of the thirteen rows is laid out as the code of its instruction with operands of zero, so
`decodeTableWord_of_encode` applies; the decoder rejects the other three. -/
theorem tableWordsDecode : Obligations.TableWordsDecode := by
  unfold Obligations.TableWordsDecode
  and_intros
  iterate 13 exact decodeTableWord_of_encode (by decide) rfl
  all_goals decide

/-- A packet written out as an instruction's code, and what follows it. -/
theorem decode_written_out {bytes packet rest : List Byte} {i : Instr} (hw : i.wf = true)
    (he : encode i = .packet packet) (hb : bytes = packet ++ rest) : decode (.packet bytes) = .instr i rest := by
  rw [hb]
  exact decodePacket_encode hw he rest

/-- Settles O60: four packets are codes of their instructions (`decode_written_out`), two fail the tests of the decoder
for which `decodePacket_reservedField` and `decodePacket_illegal` say what it answers, and the call is EXPAND's. -/
theorem writtenOutCodesDecode : Obligations.WrittenOutCodesDecode := by
  refine ⟨decode_written_out rfl rfl ?_, decode_written_out rfl rfl ?_, decode_written_out rfl rfl ?_,
    decode_written_out rfl rfl ?_, decodePacket_reservedField (o := .hash32) ?_ ?_ ?_, decodePacket_illegal ?_ ?_,
    decodeCall_encode rfl rfl⟩
  all_goals decide

end Sys2Proof.Machine

/-! PROOFS. The Word Codec and the word arithmetic (spec R110 to R117). -/

namespace Sys2Proof.Machine

/-! ### Rotation, addition, exclusive or, shift (R113 to R115) -/

theorem shl_toNat (x : Word) (k : Nat) : (shl x k).toNat = x.toNat * 2 ^ k % 2 ^ 64 := by
  rw [shl, BitVec.toNat_shiftLeft, Nat.shiftLeft_eq]

/-- The two parts of a rotation share no bit: the one that moves up fills the places from `k`, the one that comes
around those below. So their sum is at most the largest word. -/
theorem rot64_parts_lt (v : Word) {k : Nat} (hk : k ≤ 63) :
    v.toNat * 2 ^ k % 2 ^ 64 + v.toNat / 2 ^ (64 - k) < 2 ^ 64 := by
  have hsplit : (2 : Nat) ^ 64 = 2 ^ (64 - k) * 2 ^ k := by rw [← Nat.pow_add, Nat.sub_add_cancel (by omega)]
  have hup : v.toNat * 2 ^ k % 2 ^ 64 = v.toNat % 2 ^ (64 - k) * 2 ^ k := by rw [hsplit, Nat.mul_mod_mul_right]
  have hlow : v.toNat % 2 ^ (64 - k) < 2 ^ (64 - k) := Nat.mod_lt _ (Nat.two_pow_pos _)
  have haround : v.toNat / 2 ^ (64 - k) < 2 ^ k := Nat.div_lt_of_lt_mul (hsplit ▸ v.isLt)
  calc v.toNat * 2 ^ k % 2 ^ 64 + v.toNat / 2 ^ (64 - k)
      < v.toNat % 2 ^ (64 - k) * 2 ^ k + 2 ^ k := by rw [hup]; exact Nat.add_lt_add_left haround _
    _ = (v.toNat % 2 ^ (64 - k) + 1) * 2 ^ k := (Nat.succ_mul _ _).symm
    _ ≤ 2 ^ (64 - k) * 2 ^ k := Nat.mul_le_mul_right _ hlow
    _ = 2 ^ 64 := hsplit.symm

/-- The sum of R113, without a carry out of the word (`rot64_parts_lt`). -/
theorem rot64_toNat (v : Word) {k : Nat} (hk : k ≤ 63) :
    (rot64 v k).toNat = v.toNat * 2 ^ k % 2 ^ 64 + v.toNat / 2 ^ (64 - k) := by
  rw [rot64, BitVec.toNat_add, BitVec.toNat_shiftLeft, BitVec.toNat_ushiftRight, Nat.shiftLeft_eq,
    Nat.shiftRight_eq_div_pow, Nat.mod_eq_of_lt (rot64_parts_lt v hk)]

/-- The sum of R113 is a rotation: the parts share no bit, so adding them is joining them. -/
theorem rot64_eq_rotateLeft (v : Word) {k : Nat} (hk : k ≤ 63) : rot64 v k = v.rotateLeft k := by
  have hdisjoint : v <<< k &&& v >>> (64 - k) = 0#64 := by
    apply BitVec.eq_of_getLsbD_eq
    intro i hi
    rw [BitVec.getLsbD_and, BitVec.getLsbD_shiftLeft, BitVec.getLsbD_ushiftRight, BitVec.getLsbD_zero]
    by_cases hik : i < k
    · simp [hik]
    · simp [BitVec.getLsbD_of_ge v (64 - k + i) (by omega)]
  rw [rot64, BitVec.add_eq_or_of_and_eq_zero _ _ hdisjoint, BitVec.rotateLeft_def, Nat.mod_eq_of_lt (by omega)]

/-- Bit `i` goes to place `i + k`, and around to the low places past the top. -/
theorem rot64_getLsbD (v : Word) {k i : Nat} (hk : k ≤ 63) (hi : i < 64) :
    (rot64 v k).getLsbD ((i + k) % 64) = v.getLsbD i := by
  rw [rot64_eq_rotateLeft v hk, BitVec.getLsbD_rotateLeft, Nat.mod_eq_of_lt (by omega : k < 64)]
  by_cases hwrap : i + k < 64
  · rw [Nat.mod_eq_of_lt hwrap, decide_eq_false (by omega), cond_false, decide_eq_true hwrap, Bool.true_and,
      Nat.add_sub_cancel]
  · have hplace : (i + k) % 64 = i + k - 64 := by omega
    have hback : 64 - k + (i + k - 64) = i := by omega
    rw [hplace, decide_eq_true (by omega), cond_true, hback]

/-- Settles O1: the sum is `rot64_toNat`, the way of each bit `rot64_getLsbD`; the constant table carries the proof
that its distances keep the bound. -/
theorem rotationMovesEveryBitLeft : Obligations.RotationMovesEveryBitLeft :=
  ⟨fun v _ _ hk => ⟨rot64_toNat v hk, fun _ hi => rot64_getLsbD v hk hi⟩, constantTable.2⟩

/-- A length that fits one byte is not truncated when it is shifted into the top byte (R115, R166). -/
theorem shl_lengthWord {n : Nat} (h : n < 2 ^ 8) : (shl (lengthWord n) 56).toNat = n * 2 ^ 56 := by
  rw [shl_toNat, lengthWord, BitVec.toNat_ofNat, Nat.mod_eq_of_lt (by omega : n < 2 ^ 64), Nat.mod_eq_of_lt (by omega)]

/-- Settles O2: addition and exclusive or are those of the words' type; the shifts are `shl_toNat` and
`shl_lengthWord`. -/
theorem wordArithmeticWrapsAndTruncates : Obligations.WordArithmeticWrapsAndTruncates :=
  ⟨BitVec.toNat_add, fun _ _ _ => BitVec.getLsbD_xor, fun x k _ => shl_toNat x k,
    fun _ hn => shl_lengthWord (by omega)⟩

/-! ### Decode and encode (R110 to R112) -/

/-- Settles O3: eight bytes decode without loss (`le64_toNat`), and encoding gives back the bytes (`enc64_le64`). -/
theorem decodedWordIsTheLittleEndianSum : Obligations.DecodedWordIsTheLittleEndianSum := by
  refine ⟨fun b0 b1 b2 b3 b4 b5 b6 b7 => ?_, fun b c hb hc h => ?_⟩
  · rw [le64_toNat _ (by rfl)]
    simp only [leNat_cons, leNat_nil]
    omega
  · calc b = enc64 (le64 b) := (enc64_le64 hb).symm
      _ = enc64 (le64 c) := by rw [h]
      _ = c := enc64_le64 hc

/-- The recursive little-endian sum, written as one sum over the places. -/
theorem leNat_eq_sum (bs : List Byte) :
    leNat bs = ((List.range bs.length).map fun j => (bs.getD j 0).toNat * 2 ^ (8 * j)).sum := by
  induction bs with
  | nil => rfl
  | cons b bs ih =>
    have hshift : ∀ j, ((b :: bs).getD (j + 1) 0).toNat * 2 ^ (8 * (j + 1)) =
        2 ^ 8 * ((bs.getD j 0).toNat * 2 ^ (8 * j)) := fun j => by
      rw [List.getD_cons_succ, Nat.mul_succ, Nat.pow_add]
      ring
    rw [leNat_cons, ih, List.length_cons, List.range_succ_eq_map, List.map_cons, List.sum_cons, List.map_map,
      ← List.sum_map_mul_left]
    simp only [Function.comp_def, Nat.succ_eq_add_one, hshift, List.getD_cons_zero, Nat.mul_zero, Nat.pow_zero,
      Nat.mul_one]

/-- Settles O4: padding does not change the word (`le64P_eq_le64`), whose value is the sum `leNat_eq_sum`. -/
theorem shortDecodePadsWithZeros : Obligations.ShortDecodePadsWithZeros := by
  intro b hb
  refine ⟨rfl, ?_, fun hnil => ?_, fun _ => le64P_eq_le64 b⟩
  · rw [le64P_eq_le64, le64_toNat b hb, leNat_eq_sum]
  · rw [le64P_eq_le64, hnil]
    rfl

theorem enc64_getD (v : Word) {j : Nat} (hj : j < 8) : (enc64 v).getD j 0 = byteOf v j := by
  simp [enc64, hj]

/-- Settles O5: the bytes by `byteOf_toNat`, the two inverse laws by `le64_enc64` and `enc64_le64`. -/
theorem encodeAndDecodeAreInverse : Obligations.EncodeAndDecodeAreInverse := by
  refine ⟨fun v => ⟨enc64_length v, fun j hj => ?_, le64_enc64 v⟩, fun _ hb => enc64_le64 hb⟩
  rw [enc64_getD v hj, byteOf_toNat]

/-! ### The tagged block (R116, R117) -/

section

variable {b : List Byte} {t : Byte} {i : Nat}

theorem padTag_getD_data (hi : i < b.length) : (padTag b t).getD i 0 = b.getD i 0 := by
  rw [padTag, List.append_assoc, List.getD_append _ _ _ _ hi]

theorem padTag_getD_padding (hlo : b.length ≤ i) (hhi : i ≤ 94) : (padTag b t).getD i 0 = 0 := by
  have hplace : i - b.length < (zeros (95 - b.length)).length := by rw [zeros_length]; omega
  rw [padTag, List.append_assoc, List.getD_append_right _ _ _ _ hlo, List.getD_append _ _ _ _ hplace, zeros,
    List.getD_replicate (h := by omega)]

theorem padTag_getD_tag (h : b.length ≤ 95) : (padTag b t).getD 95 0 = t := by
  have hfront : (b ++ zeros (95 - b.length)).length = 95 := by rw [List.length_append, zeros_length]; omega
  rw [padTag, List.getD_append_right _ _ _ _ hfront.le, hfront, Nat.sub_self, List.getD_cons_zero]

end

/-- The top byte of a word of a block is the last of the eight bytes it is decoded from. -/
theorem block12_topByte {p : List Byte} (hp : p.length = 96) (i : Fin 12) :
    ((block12 p)[i]).toNat / 2 ^ 56 = (p.getD (8 * i.1 + 7) 0).toNat := by
  have hword : (block12 p)[i] = packetWord p i.1 := block12_getElem p i
  have htop : (packetWord p i.1).toNat / 2 ^ 56 < 2 ^ 8 := Nat.div_lt_of_lt_mul (packetWord p i.1).isLt
  rw [hword, ← byteOf_packetWord (by omega) (by decide : 7 < 8), byteOf_toNat, Nat.mod_eq_of_lt htop]

/-- Settles O6: the bytes of the block are those of the `padTag_getD` lemmas, and byte 95 is the top byte of word 11
(`block12_topByte`). -/
theorem taggedBlockKeepsDataAndTag : Obligations.TaggedBlockKeepsDataAndTag := by
  intro b t hb
  have hlen := padTag_length b t hb
  have htag : (padTag b t).getD 95 0 = t := padTag_getD_tag hb
  refine ⟨hlen, fun _ hi => padTag_getD_data hi, fun _ hlo hhi => padTag_getD_padding hlo hhi, htag, ?_, fun i => ?_⟩
  · exact (block12_topByte hlen 11).trans (congrArg BitVec.toNat htag)
  · rw [block12_getElem, slice, Nat.add_sub_cancel_left]

end Sys2Proof.Machine

/-! PROOFS. The rounds of the unit spookyv2_mixer (spec R130 to R135). -/

namespace Sys2Proof.Machine

/-! ### One step of a round, read word by word -/

/-- The words one step names are different words: the sub-steps that share a step do not overwrite each other's
operands by a coincidence of the index arithmetic. -/
theorem stepIndices_ne (i : Fin 12) :
    (i ≠ i + 1 ∧ i ≠ i + 2 ∧ i ≠ i + 10 ∧ i ≠ i + 11) ∧ (i + 2 ≠ i ∧ i + 2 ≠ i + 1 ∧ i + 2 ≠ i + 10 ∧ i + 2 ≠ i + 11) ∧
      i + 11 ≠ i ∧ i + 11 ≠ i + 1 ∧ i + 11 ≠ i + 2 := by
  revert i; decide

/-- What a step of MIX leaves in each word, from the words before the step (R130). -/
theorem mixStep_getElem (c : KP) (data s : Words12) (i j : Fin 12) :
    (mixStep c data s i)[j] =
      if i + 11 = j then add64 (xor64 s[i + 11] (add64 s[i] data[i])) s[i + 1]
      else if i = j then rot64 (add64 s[i] data[i]) c.mixRot[i]
      else if i + 2 = j then xor64 s[i + 2] s[i + 10]
      else s[j] := by
  by_cases hj : i + 11 = j
  · subst hj
    simp only [mixStep, put_getElem, stepIndices_ne, reduceIte]
  by_cases hi : i = j
  · subst hi
    simp only [mixStep, put_getElem, stepIndices_ne, reduceIte]
  · simp only [mixStep, put_getElem, stepIndices_ne, hj, hi, reduceIte]

/-- What a step of ENDPARTIAL leaves in each word, from the words before the step (R133). -/
theorem endPartialStep_getElem (c : KP) (h : Words12) (i j : Fin 12) :
    (endPartialStep c h i)[j] =
      if i + 1 = j then rot64 h[i + 1] c.endpRot[i]
      else if i + 2 = j then xor64 h[i + 2] (add64 h[i + 11] h[i + 1])
      else if i + 11 = j then add64 h[i + 11] h[i + 1]
      else h[j] := by
  simp only [endPartialStep, put_getElem, stepIndices_ne, reduceIte]

/-! ### The loops are the listings -/

/-- R131: each word of the result is read back through the twelve steps (`mixStep_getElem`), which gives the word of
the listing. -/
theorem mix_eq_mixListing (data s : Words12) : mix kp data s = mixListing data s := by
  refine words_ext fun j => ?_
  unfold mix steps12
  fin_cases j <;>
  · simp only [List.foldl_cons, List.foldl_nil, mixStep_getElem, Fin.reduceFinMk, Fin.reduceAdd, Fin.reduceEq, ↓reduceIte]
    rfl

/-- R134, in the same way through `endPartialStep_getElem`. -/
theorem endPartial_eq_endPartialListing (h : Words12) : endPartial kp h = endPartialListing h := by
  refine words_ext fun j => ?_
  unfold endPartial steps12
  fin_cases j <;>
  · simp only [List.foldl_cons, List.foldl_nil, endPartialStep_getElem, Fin.reduceFinMk, Fin.reduceAdd, Fin.reduceEq,
      ↓reduceIte]
    rfl

theorem exec_mix (data state : Words12) (s : State) :
    exec (.mix data state) s = .next (s.returnUnit (.state (mix kp data state))) := rfl

theorem exec_endPartial (state : Words12) (s : State) :
    exec (.endPartial state) s = .next (s.returnUnit (.state (endPartial kp state))) := rfl

/-- Settles O7: the words are those of the listing (`mix_eq_mixListing`), and `returnUnit` writes its own field
only. -/
theorem mixReturnsTheListedRound : Obligations.MixReturnsTheListedRound := by
  intro data state s
  rw [exec_mix, mix_eq_mixListing, State.returnUnit]

/-- Settles O8, as O7 with `endPartial_eq_endPartialListing`. -/
theorem endPartialReturnsTheListedRound : Obligations.EndPartialReturnsTheListedRound := by
  intro state s
  rw [exec_endPartial, endPartial_eq_endPartialListing, State.returnUnit]

/-! ### Sub-steps that can be undone -/

open Function (Bijective)

theorem add64_bijective (y : Word) : Bijective (add64 · y) := (Equiv.addRight y).bijective

theorem xor64_bijective (y : Word) : Bijective (xor64 · y) :=
  Function.Involutive.bijective fun x => by simp only [xor64, BitVec.xor_assoc, BitVec.xor_self, BitVec.xor_zero]

/-- A rotation loses no bit: bit `i` of the operand is bit `i + k` of the result (`rot64_getLsbD`). -/
theorem rot64_bijective {k : Nat} (hk : k ≤ 63) : Bijective (rot64 · k) := by
  refine Finite.injective_iff_bijective.mp fun v w h => BitVec.eq_of_getLsbD_eq fun i hi => ?_
  have hrot : rot64 v k = rot64 w k := h
  rw [← rot64_getLsbD v hk hi, hrot, rot64_getLsbD w hk hi]

section

variable {n : Nat} {i : Fin n}

/-- Of two writes to one word the later stands. -/
theorem put_put (v : Vector Word n) (a b : Word) : put (put v i a) i b = put v i b :=
  words_ext fun j => by
    simp only [put_getElem]
    split <;> rfl

/-- Writing one word in a way that can be undone, where the way depends on the other words only, can be undone: the
other words are still there to tell which way it was (R132 (d)). -/
theorem put_bijective {f : Vector Word n → Word → Word} (hother : ∀ v w, f (put v i w) = f v)
    (hf : ∀ v, Bijective (f v)) : Bijective fun v => put v i (f v v[i]) := by
  constructor
  · intro u v (h : put u i (f u u[i]) = put v i (f v v[i]))
    have hword : f u u[i] = f v v[i] := by rw [← put_getElem_self u i (f u u[i]), h, put_getElem_self]
    have hrest (w : Word) : put u i w = put v i w := by rw [← put_put u (f u u[i]), h, put_put]
    have hway : f u = f v := by rw [← hother u 0, hrest, hother]
    have hsame : u[i] = v[i] := (hf v).1 (hway ▸ hword)
    rw [← put_same u i, hsame, hrest, put_same]
  · intro v
    obtain ⟨x, hx⟩ := (hf v).2 v[i]
    refine ⟨put v i x, ?_⟩
    show put (put v i x) i (f (put v i x) (put v i x)[i]) = v
    rw [put_put, hother, put_getElem_self, hx, put_same]

variable (i) in
/-- Adding a constant into a word. -/
theorem put_add64_const_bijective (y : Word) : Bijective fun v : Vector Word n => put v i (add64 v[i] y) :=
  put_bijective (fun _ _ => rfl) fun _ => add64_bijective y

variable (i) in
/-- Rotating a word. -/
theorem put_rot64_bijective {k : Nat} (hk : k ≤ 63) : Bijective fun v : Vector Word n => put v i (rot64 v[i] k) :=
  put_bijective (f := fun _ x => rot64 x k) (fun _ _ => rfl) fun _ => rot64_bijective hk

variable {j : Fin n} (hij : i ≠ j)
include hij

/-- Adding another word into a word. -/
theorem put_add64_bijective : Bijective fun v : Vector Word n => put v i (add64 v[i] v[j]) :=
  put_bijective (f := fun v x => add64 x v[j]) (fun v w => by simp only [put_getElem_of_ne v i j w hij])
    fun v => add64_bijective v[j]

/-- Exclusive or of another word into a word. -/
theorem put_xor64_bijective : Bijective fun v : Vector Word n => put v i (xor64 v[i] v[j]) :=
  put_bijective (f := fun v x => xor64 x v[j]) (fun v w => by simp only [put_getElem_of_ne v i j w hij])
    fun v => xor64_bijective v[j]

end

/-! ### Rounds that can be undone -/

/-- A round is undone step by step, from the last to the first. -/
theorem foldl_bijective {α β : Type} {step : α → β → α} (h : ∀ b, Bijective (step · b)) :
    ∀ bs : List β, Bijective (bs.foldl step)
  | [] => Function.bijective_id
  | b :: bs => (foldl_bijective h bs).comp (h b)

/-- The bound of R113 on one table of distances. -/
theorem getElem_le_of_all_rotOk {n : Nat} {v : Vector Nat n} (h : v.toList.all rotOk = true) (i : Fin n) : v[i] ≤ 63 := by
  have hi : rotOk v[i] = true := List.all_eq_true.mp h _ (Vector.mem_toList_iff.mpr (Vector.getElem_mem i.2))
  simp only [rotOk, Bool.and_eq_true, decide_eq_true_eq] at hi
  exact hi.2

/-- The bound of R113 on the four tables of a profile. -/
theorem distances_le_of_wf {c : KP} (h : c.wf = true) :
    (∀ i : Fin 12, c.mixRot[i] ≤ 63) ∧ (∀ i : Fin 12, c.endpRot[i] ≤ 63) ∧ (∀ i : Fin 12, c.smixRot[i] ≤ 63) ∧
      ∀ i : Fin 11, c.sendRot[i] ≤ 63 := by
  simp only [KP.wf, Bool.and_eq_true] at h
  obtain ⟨⟨⟨hmix, hendp⟩, hsmix⟩, hsend⟩ := h
  exact ⟨getElem_le_of_all_rotOk hmix, getElem_le_of_all_rotOk hendp, getElem_le_of_all_rotOk hsmix,
    getElem_le_of_all_rotOk hsend⟩

/-- The five sub-steps of R130, each of them undone. -/
theorem mixStep_bijective {c : KP} (data : Words12) (i : Fin 12) (hk : c.mixRot[i] ≤ 63) :
    Bijective (mixStep c data · i) := by
  obtain ⟨-, ⟨-, -, h2_10, -⟩, h11_0, h11_1, -⟩ := stepIndices_ne i
  have hdata := put_add64_const_bijective i data[i]
  have hxor2 := (put_xor64_bijective h2_10).comp hdata
  have hxor11 := (put_xor64_bijective h11_0).comp hxor2
  have hrot := (put_rot64_bijective i hk).comp hxor11
  exact (put_add64_bijective h11_1).comp hrot

/-- The three sub-steps of R133, each of them undone. -/
theorem endPartialStep_bijective {c : KP} (i : Fin 12) (hk : c.endpRot[i] ≤ 63) : Bijective (endPartialStep c · i) := by
  obtain ⟨-, ⟨-, -, -, h2_11⟩, -, h11_1, -⟩ := stepIndices_ne i
  have hadd := put_add64_bijective h11_1
  have hxor := (put_xor64_bijective h2_11).comp hadd
  exact (put_rot64_bijective (i + 1) hk).comp hxor

/-- Settles O11: MIX is twelve steps, each a bijection (`mixStep_bijective`). -/
theorem mixIsABijection : Obligations.MixIsABijection := by
  intro c data hc
  obtain ⟨hmix, -⟩ := distances_le_of_wf hc
  exact foldl_bijective (fun i => mixStep_bijective data i (hmix i)) steps12

/-- Settles O12: ENDPARTIAL is twelve steps, each a bijection (`endPartialStep_bijective`). -/
theorem endPartialIsABijection : Obligations.EndPartialIsABijection := by
  intro c hc
  obtain ⟨-, hendp, -⟩ := distances_le_of_wf hc
  exact foldl_bijective (fun i => endPartialStep_bijective i (hendp i)) steps12

/-! ### Zeros stay zeros -/

theorem add64_zero : add64 0 0 = 0 := by decide

theorem xor64_zero : xor64 0 0 = 0 := by decide

theorem rot64_zero (k : Nat) : rot64 0 k = 0 := by simp [rot64]

/-- `n` zero words. -/
abbrev zeroWords (n : Nat) : Vector Word n := Vector.replicate n 0

theorem zeroWords_getElem {n : Nat} (i : Fin n) : (zeroWords n)[i] = 0 := Vector.getElem_replicate i.2

theorem put_zeroWords {n : Nat} (i : Fin n) : put (zeroWords n) i 0 = zeroWords n := by
  have h := put_same (zeroWords n) i
  rwa [zeroWords_getElem] at h

theorem mix_zeroWords (c : KP) : mix c (zeroWords 12) (zeroWords 12) = zeroWords 12 :=
  List.foldl_fixed' (fun i => by
    simp only [mixStep, zeroWords_getElem, put_zeroWords, add64_zero, xor64_zero, rot64_zero]) steps12

theorem endPartial_zeroWords (c : KP) : endPartial c (zeroWords 12) = zeroWords 12 :=
  List.foldl_fixed' (fun i => by
    simp only [endPartialStep, zeroWords_getElem, put_zeroWords, add64_zero, xor64_zero, rot64_zero]) steps12

theorem endHash_zeroWords (c : KP) : endHash c (zeroWords 12) (zeroWords 12) = (0, 0) := by
  simp only [endHash, mix_zeroWords, endPartial_zeroWords]
  rfl

theorem shortMix_zeroWords (c : KP) : shortMix c (zeroWords 4) = zeroWords 4 :=
  List.foldl_fixed' (fun j => by
    simp only [shortMixStep, zeroWords_getElem, put_zeroWords, add64_zero, xor64_zero, rot64_zero]) steps12

theorem shortEnd_zeroWords (c : KP) : shortEnd c (zeroWords 4) = zeroWords 4 :=
  List.foldl_fixed' (fun j => by
    simp only [shortEndStep, zeroWords_getElem, put_zeroWords, add64_zero, xor64_zero, rot64_zero]) steps11

/-- Settles O14: sums, exclusive ors and rotations of zeros are zero, so each step keeps zero words, and so does each
round. -/
theorem roundsKeepZero : Obligations.RoundsKeepZero := fun c =>
  ⟨mix_zeroWords c, endPartial_zeroWords c, endHash_zeroWords c, shortMix_zeroWords c, shortEnd_zeroWords c⟩

end Sys2Proof.Machine

/-! PROOFS. END, the unit spookyv2_finalize (spec R150 to R152). -/

namespace Sys2Proof.Machine

/-- R150 to R152: under profile P0, END runs the listed MIX once and the listed ENDPARTIAL three times, and keeps words
0 and 1. -/
theorem endHash_eq_listings (data s : Words12) :
    endHash kp data s =
      ((endPartialListing (endPartialListing (endPartialListing (mixListing data s))))[0],
        (endPartialListing (endPartialListing (endPartialListing (mixListing data s))))[1]) := by
  simp only [endHash, mix_eq_mixListing, endPartial_eq_endPartialListing]

theorem exec_endHash (data state : Words12) (s : State) :
    exec (.endHash data state) s =
      .next (s.returnUnit (.pair (endHash kp data state).1 (endHash kp data state).2)) := rfl

/-- Settles O9: the pair is that of the listings (`endHash_eq_listings`), and `returnUnit` writes its own field only. -/
theorem endIsOneMixAndThreeRounds : Obligations.EndIsOneMixAndThreeRounds := by
  intro data state s
  rw [exec_endHash, endHash_eq_listings, State.returnUnit]

end Sys2Proof.Machine

/-! PROOFS. The short rounds SHORTMIX and SHORTEND (spec R160 to R164). -/

namespace Sys2Proof.Machine

/-! ### One step of a short round, read word by word -/

/-- The word that a step of SHORTMIX rotates and adds into is neither of the two others it names. -/
theorem shortMixIndices_ne (j : Fin 12) :
    mod4 (j.1 + 2) ≠ mod4 (j.1 + 3) ∧ mod4 (j.1 + 2) ≠ mod4 j.1 ∧ mod4 j.1 ≠ mod4 (j.1 + 2) := by
  revert j; decide

/-- The words a step of SHORTEND names are different words. -/
theorem shortEndIndices_ne (j : Fin 11) :
    mod4 (j.1 + 3) ≠ mod4 (j.1 + 2) ∧ mod4 (j.1 + 2) ≠ mod4 (j.1 + 3) := by
  revert j; decide

/-- What a step of SHORTMIX leaves in each word, from the words before the step (R160). -/
theorem shortMixStep_getElem (c : KP) (h : Words4) (j : Fin 12) (i : Fin 4) :
    (shortMixStep c h j)[i] =
      if mod4 j.1 = i then xor64 h[mod4 j.1] (add64 (rot64 h[mod4 (j.1 + 2)] c.smixRot[j]) h[mod4 (j.1 + 3)])
      else if mod4 (j.1 + 2) = i then add64 (rot64 h[mod4 (j.1 + 2)] c.smixRot[j]) h[mod4 (j.1 + 3)]
      else h[i] := by
  simp only [shortMixStep, put_put, put_getElem, shortMixIndices_ne, reduceIte]

/-- What a step of SHORTEND leaves in each word, from the words before the step (R162). -/
theorem shortEndStep_getElem (c : KP) (h : Words4) (j : Fin 11) (i : Fin 4) :
    (shortEndStep c h j)[i] =
      if mod4 (j.1 + 3) = i then
        add64 (xor64 h[mod4 (j.1 + 3)] h[mod4 (j.1 + 2)]) (rot64 h[mod4 (j.1 + 2)] c.sendRot[j])
      else if mod4 (j.1 + 2) = i then rot64 h[mod4 (j.1 + 2)] c.sendRot[j]
      else h[i] := by
  by_cases hx : mod4 (j.1 + 3) = i
  · subst hx
    simp only [shortEndStep, put_getElem, shortEndIndices_ne, reduceIte]
  · simp only [shortEndStep, put_getElem, shortEndIndices_ne, hx, reduceIte]

/-! ### The loops are the listings -/

/-- R161: each word of the result is read back through the twelve steps (`shortMixStep_getElem`), which gives the word
of the listing. -/
theorem shortMix_eq_shortMixListing (h : Words4) : shortMix kp h = shortMixListing h := by
  refine words_ext fun i => ?_
  unfold shortMix steps12
  fin_cases i <;>
  · simp only [List.foldl_cons, List.foldl_nil, shortMixStep_getElem, mod4]
    rfl

/-- R163, in the same way through `shortEndStep_getElem` and eleven steps. -/
theorem shortEnd_eq_shortEndListing (h : Words4) : shortEnd kp h = shortEndListing h := by
  refine words_ext fun i => ?_
  unfold shortEnd steps11
  fin_cases i <;>
  · simp only [List.foldl_cons, List.foldl_nil, shortEndStep_getElem, mod4]
    rfl

theorem exec_shortMix (h : Words4) (s : State) :
    exec (.shortMix h) s = .next (s.returnUnit (.four (shortMix kp h))) := rfl

theorem exec_shortEnd (h : Words4) (s : State) :
    exec (.shortEnd h) s = .next (s.returnUnit (.four (shortEnd kp h))) := rfl

/-- Settles O10: the words are those of the listings (`shortMix_eq_shortMixListing`, `shortEnd_eq_shortEndListing`),
and `returnUnit` writes its own field only. -/
theorem shortRoundsReturnTheListedRounds : Obligations.ShortRoundsReturnTheListedRounds := by
  intro h s
  constructor
  · rw [exec_shortMix, shortMix_eq_shortMixListing, State.returnUnit]
  · rw [exec_shortEnd, shortEnd_eq_shortEndListing, State.returnUnit]

/-! ### Rounds that can be undone -/

open Function (Bijective)

/-- The three sub-steps of R160, each of them undone. -/
theorem shortMixStep_bijective {c : KP} (j : Fin 12) (hk : c.smixRot[j] ≤ 63) : Bijective (shortMixStep c · j) := by
  obtain ⟨hxy, -, hzx⟩ := shortMixIndices_ne j
  have hrot := put_rot64_bijective (mod4 (j.1 + 2)) hk
  have hadd := (put_add64_bijective hxy).comp hrot
  exact (put_xor64_bijective hzx).comp hadd

/-- The three sub-steps of R162, each of them undone. -/
theorem shortEndStep_bijective {c : KP} (j : Fin 11) (hk : c.sendRot[j] ≤ 63) : Bijective (shortEndStep c · j) := by
  obtain ⟨hxy, -⟩ := shortEndIndices_ne j
  have hxor := put_xor64_bijective hxy
  have hrot := (put_rot64_bijective (mod4 (j.1 + 2)) hk).comp hxor
  exact (put_add64_bijective hxy).comp hrot

/-- Settles O13: SHORTMIX is twelve steps and SHORTEND eleven, each a bijection (`shortMixStep_bijective`,
`shortEndStep_bijective`). -/
theorem shortRoundsAreBijections : Obligations.ShortRoundsAreBijections := by
  intro c hc
  obtain ⟨-, -, hsmix, hsend⟩ := distances_le_of_wf hc
  exact ⟨foldl_bijective (fun j => shortMixStep_bijective j (hsmix j)) steps12,
    foldl_bijective (fun j => shortEndStep_bijective j (hsend j)) steps11⟩

end Sys2Proof.Machine

/-! PROOFS. SHORT, the unit spookyv2_short_path (spec R165 to R173). -/

namespace Sys2Proof.Machine

/-! ### The length tag and the words of the padded rest (R111, R117, R166) -/

/-- The tag that TAILFOLD adds, as a multiple of the top byte's place; what does not fit the word is lost on both
sides. -/
theorem shl_lengthWord_eq_ofNat (n : Nat) : shl (lengthWord n) 56 = BitVec.ofNat 64 (n * 2 ^ 56) :=
  BitVec.eq_of_toNat_eq (by rw [shl_toNat, lengthWord, BitVec.toNat_ofNat, BitVec.toNat_ofNat, Nat.mod_mul_mod])

theorem le64_append_zeros (b : List Byte) (n : Nat) : le64 (b ++ zeros n) = le64 b := by
  rw [le64, leNat_append, leNat_zeros, Nat.mul_zero, Nat.add_zero, le64]

/-- A word of a padded block that the tag does not reach is the word of the bytes there are. -/
theorem le64_slice_padTag {b : List Byte} {j : Nat} (t : Byte) (hb : b.length ≤ 95) (hj : 8 * j + 8 ≤ 95) :
    le64 (slice (padTag b t) (8 * j) (8 * j + 8)) = le64P ((b.drop (8 * j)).take 8) := by
  have hfront : (b ++ zeros (95 - b.length)).length = 95 := by rw [List.length_append, zeros_length]; omega
  have hdata : slice (padTag b t) (8 * j) (8 * j + 8) = ((b ++ zeros (95 - b.length)).drop (8 * j)).take 8 := by
    rw [slice_add, padTag, List.drop_append_of_le_length (by omega),
      List.take_append_of_le_length (by rw [List.length_drop]; omega)]
  rw [hdata, List.drop_append, List.take_append, zeros, List.drop_replicate, List.take_replicate, le64P_eq_le64]
  exact le64_append_zeros _ _

/-- Word 11 of a block of at most 88 bytes holds the tag alone, in its top byte. -/
theorem le64_slice_padTag_top {b : List Byte} (t : Byte) (hb : b.length ≤ 88) :
    le64 (slice (padTag b t) 88 96) = BitVec.ofNat 64 (t.toNat * 2 ^ 56) := by
  have hsplit : padTag b t = (b ++ zeros (88 - b.length)) ++ (zeros 7 ++ [t]) := by
    have hzeros : zeros (95 - b.length) = zeros (88 - b.length) ++ zeros 7 := by
      rw [zeros, zeros, zeros, ← List.replicate_add]
      congr 1
      omega
    simp only [padTag, hzeros, List.append_assoc]
  have hfront : (b ++ zeros (88 - b.length)).length = 88 := by rw [List.length_append, zeros_length]; omega
  have htop : slice (padTag b t) 88 96 = zeros 7 ++ [t] := by
    rw [hsplit, slice, List.drop_left' hfront, List.take_of_length_le (by simp)]
  rw [htop, le64, leNat_append, leNat_zeros, zeros_length, leNat_cons, leNat_nil, Nat.mul_zero, Nat.add_zero,
    Nat.zero_add, Nat.mul_comm]

/-- The data block that SHORT hands to END after its sub-blocks (R171). -/
theorem block12_padTag_of_lt_32 {b : List Byte} {n : Nat} (hb : b.length < 32) (hn : n < 2 ^ 8) :
    (∀ j : Fin 12, j.1 < 4 → (block12 (padTag b (tagByte n)))[j] = le64P ((b.drop (8 * j.1)).take 8)) ∧
    (∀ j : Fin 12, 4 ≤ j.1 → j.1 ≤ 10 → (block12 (padTag b (tagByte n)))[j] = 0) ∧
    (block12 (padTag b (tagByte n)))[11] = BitVec.ofNat 64 (n * 2 ^ 56) := by
  refine ⟨fun j hj => ?_, fun j hlo hhi => ?_, ?_⟩
  · rw [block12_getElem, le64_slice_padTag _ (by omega) (by omega)]
  · rw [block12_getElem, le64_slice_padTag _ (by omega) (by omega), List.drop_eq_nil_of_le (by omega)]
    rfl
  · have htag : (tagByte n).toNat = n := Nat.mod_eq_of_lt hn
    calc (block12 (padTag b (tagByte n)))[11] = le64 (slice (padTag b (tagByte n)) 88 96) := block12_getElem _ 11
      _ = BitVec.ofNat 64 (n * 2 ^ 56) := by rw [le64_slice_padTag_top _ (by omega), htag]

/-! ### The additions into the working words -/

/-- Additions into C and D, in that order. -/
theorem put_add64_cd (w : Words4) (x y : Word) :
    put (put w 2 (add64 w[2] x)) 3 (add64 (put w 2 (add64 w[2] x))[3] y) = #v[w[0], w[1], w[2] + x, w[3] + y] := by
  refine words_ext fun i => ?_
  fin_cases i <;> simp [add64]

/-- Additions into A and B, in that order. -/
theorem put_add64_ab (w : Words4) (x y : Word) :
    put (put w 0 (add64 w[0] x)) 1 (add64 (put w 0 (add64 w[0] x))[1] y) = #v[w[0] + x, w[1] + y, w[2], w[3]] := by
  refine words_ext fun i => ?_
  fin_cases i <;> simp [add64]

/-- TAILFOLD: the tail into C, the tag and what is left of the tail into D; an empty tail counts as `K` twice
(R166). -/
theorem tailFold_eq (c : KP) (w : Words4) (t : List Byte) (n : Nat) :
    tailFold c w t n =
      #v[w[0], w[1], w[2] + (if t.length = 0 then c.K else le64P (t.take 8)),
        w[3] + BitVec.ofNat 64 (n * 2 ^ 56) + (if t.length = 0 then c.K else le64P (t.drop 8))] := by
  have hlow : slice t 0 (min t.length 8) = t.take 8 := by
    rw [slice, List.drop_zero, Nat.sub_zero, Nat.min_comm, ← List.take_eq_take_min]
  have hhigh : slice t (min t.length 8) t.length = t.drop 8 := by
    rw [slice, List.take_of_length_le (List.length_drop ..).le, Nat.min_comm, ← List.drop_eq_drop_min]
  simp only [tailFold, hlow, hhigh, shl_lengthWord_eq_ofNat]
  split <;>
  · rw [put_add64_cd]
    simp [add64]

/-- One sub-block of R170, with its bytes named by their places in the message. -/
theorem subBlock_eq (c : KP) (m : List Byte) (o : Nat) (w : Words4) :
    subBlock c ((m.drop o).take 32) w =
      let u := shortMix c #v[w[0], w[1], w[2] + le64 (slice m o (o + 8)), w[3] + le64 (slice m (o + 8) (o + 16))]
      #v[u[0] + le64 (slice m (o + 16) (o + 24)), u[1] + le64 (slice m (o + 24) (o + 32)), u[2], u[3]] := by
  have hword (i : Nat) (hi : i + 8 ≤ 32) : slice ((m.drop o).take 32) i (i + 8) = slice m (o + i) (o + i + 8) := by
    rw [slice_add, slice_add, List.drop_take, List.take_take, List.drop_drop, Nat.min_eq_left (by omega)]
  simp only [subBlock, put_add64_cd, put_add64_ab, hword 0 (by decide), hword 8 (by decide), hword 16 (by decide),
    hword 24 (by decide), Nat.add_zero, Nat.add_assoc, Nat.reduceAdd]

/-- The model's recursion over the sub-blocks is R170's fold over their numbers. -/
theorem subBlocks_eq_foldl (c : KP) (n : Nat) (m : List Byte) (w : Words4) :
    subBlocks c n m w = (List.range n).foldl (fun v i => subBlock c ((m.drop (32 * i)).take 32) v) w := by
  induction n generalizing m w with
  | zero => rfl
  | succ n ih =>
    rw [subBlocks, ih, List.range_succ_eq_map, List.foldl_cons, List.foldl_map]
    simp only [List.drop_drop, Nat.mul_zero, List.drop_zero, Nat.succ_eq_add_one, Nat.mul_add_one, Nat.add_comm]

/-! ### SHORT as an instruction -/

/-- Within its domain SHORT returns its pair and writes no other field (R91, R165). -/
theorem exec_short {m : List Byte} {seed1 seed2 h1 h2 : Word} (hm : m.length ≤ 192)
    (hpair : short kp m seed1 seed2 = (h1, h2)) (s : State) :
    exec (.short m seed1 seed2) s = .next { s with unitReturns := s.unitReturns ++ [.pair h1 h2] } := by
  have hexec : exec (.short m seed1 seed2) s =
      .next (s.returnUnit (.pair (short kp m seed1 seed2).1 (short kp m seed1 seed2).2)) := if_pos hm
  rw [hexec, hpair, State.returnUnit]

/-- Settles O15: with an empty tail and the tag 0, TAILFOLD adds `K` to the `K` of the setup in C and in D
(`tailFold_eq`). -/
theorem shortOfNothingDependsOnSeedsOnly : Obligations.ShortOfNothingDependsOnSeedsOnly := by
  intro seed1 seed2 s
  have hK : kp.K + kp.K = 0xBD5B7DDFBD5B7DDE := by decide
  have hfold : tailFold kp (shortSetup kp seed1 seed2) [] 0 =
      #v[seed1, seed2, 0xBD5B7DDFBD5B7DDE, 0xBD5B7DDFBD5B7DDE] := by
    rw [tailFold_eq, ← hK]
    simp [shortSetup]
  refine exec_short (m := []) (Nat.zero_le 192) ?_ s
  rw [short, if_pos List.length_nil, shortEmpty, hfold, firstTwo]

/-- Settles O16: the one round is over what TAILFOLD makes of the setup (`tailFold_eq`); the tail is not empty. -/
theorem shortBelowSixteenRunsOneRound : Obligations.ShortBelowSixteenRunsOneRound := by
  intro m seed1 seed2 s hlo hhi
  refine ⟨_, rfl, exec_short (by omega) ?_ s⟩
  have hne : m.length ≠ 0 := by omega
  rw [short, if_neg hne, if_pos (by omega), shortOneRound, tailFold_eq, if_neg hne, if_neg hne]
  rfl

/-- Settles O17: the setup and sixteen bytes give SHORTMIX its words (`put_add64_cd`), TAILFOLD gives SHORTEND its
own (`tailFold_eq`); the tail is empty at exactly 16 bytes. -/
theorem shortBelowThirtyTwoRunsTwoRounds : Obligations.ShortBelowThirtyTwoRunsTwoRounds := by
  intro m seed1 seed2 s hlo hhi
  refine ⟨_, _, rfl, rfl, exec_short (by omega) ?_ s⟩
  have hempty : (m.drop 16).length = 0 ↔ m.length = 16 := by rw [List.length_drop]; omega
  rw [short, if_neg (by omega), if_neg (by omega), if_pos (by omega)]
  simp only [shortTwoRounds, put_add64_cd, tailFold_eq, hempty, List.drop_drop]
  rfl

/-- Settles O18: the sub-blocks are the fold over their numbers (`subBlocks_eq_foldl`, `subBlock_eq`), and the words of
the padded rest are those of `block12_padTag_of_lt_32`, the rest being shorter than one sub-block. -/
theorem shortFromThirtyTwoEndsInEnd : Obligations.ShortFromThirtyTwoEndsInEnd := by
  intro m seed1 seed2 s hlo hhi
  have hrest : (m.drop (32 * (m.length / 32))).length < 32 := by rw [List.length_drop]; omega
  obtain ⟨hwords, hzeros, htag⟩ := block12_padTag_of_lt_32 hrest (show m.length < 2 ^ 8 by omega)
  refine ⟨_, _, rfl, hwords, hzeros, htag, exec_short hhi ?_ s⟩
  rw [short, if_neg (by omega), if_neg (by omega), if_neg (by omega), shortBlocks, subBlocks_eq_foldl]
  simp only [subBlock_eq]
  rfl

/-- Settles O19: the one test of the instruction is on the length. -/
theorem shortAboveItsDomainIsRefused : Obligations.ShortAboveItsDomainIsRefused :=
  fun _ _ _ _ hm => if_neg (Nat.not_le.mpr hm)

/-! ### The short path and the long path -/

/-- The pair of vector S1 (spec 95_test_vectors.md). -/
theorem short_nil : short kp [] 0 0 = (0x232706FC6BF50919, 0x8B72EE65B4E851C7) := by decide +kernel

/-- The pair of vector T1: the empty message on the incremental path (spec 95_test_vectors.md). -/
theorem long_nil : long kp [] 0 0 = (0x4459E054E83558D0, 0xDAA247B5A5DD72D1) := by decide +kernel

/-- Settles O20: the empty message tells the two paths apart (`short_nil`, `long_nil`). -/
theorem shortPathIsNotTheLongPath : Obligations.ShortPathIsNotTheLongPath := by
  have hlen : ([] : List Byte).length ≤ 192 := Nat.zero_le 192
  refine ⟨[], hlen, ?_⟩
  rw [hashPair, if_pos hlen, short_nil, long_nil]
  decide

end Sys2Proof.Machine

/-! PROOFS. INIT, UPDATE and FINAL on the context CTX (spec R190 to R204). -/

namespace Sys2Proof.Machine

/-! ### EXPAND and INIT -/

/-- Words 0 and 1 are the bare seeds, and the other ten are those of MIX of a zero block into the template (R191). -/
theorem expand_getElem (c : KP) (seed1 seed2 : Word) (i : Fin 12) :
    (expand c seed1 seed2)[i] =
      if 1 = i then seed2 else if 0 = i then seed1 else (mix c (zeroWords 12) (expandTemplate c seed1 seed2))[i] := by
  rw [expand, put_getElem, put_getElem]

theorem expand_getElem_zero (c : KP) (seed1 seed2 : Word) : (expand c seed1 seed2)[0] = seed1 :=
  expand_getElem c seed1 seed2 0

theorem expand_getElem_one (c : KP) (seed1 seed2 : Word) : (expand c seed1 seed2)[1] = seed2 :=
  expand_getElem c seed1 seed2 1

theorem exec_expand (seed1 seed2 : Word) (s : State) :
    exec (.expand seed1 seed2) s = .next (s.returnUnit (.state (expand kp seed1 seed2))) := rfl

/-- Settles O21: the words of EXPAND are read by `expand_getElem`, and `returnUnit` writes its own field only. -/
theorem expandKeepsSeedsAndMixesOnce : Obligations.ExpandKeepsSeedsAndMixesOnce := by
  intro seed1 seed2 s
  refine ⟨expand kp seed1 seed2, exec_expand seed1 seed2 s, expand_getElem_zero kp seed1 seed2,
    expand_getElem_one kp seed1 seed2, fun i hi => ?_⟩
  have hone : 1 ≠ i := by rintro rfl; exact absurd hi (by decide)
  have hzero : 0 ≠ i := by rintro rfl; exact absurd hi (by decide)
  rw [expand_getElem, if_neg hone, if_neg hzero]
  rfl

/-- INIT's effect, field by field (R190). -/
theorem initEffect_eq (seed1 seed2 : Word) (s : State) :
    initEffect seed1 seed2 s =
      { s with
        words := expand kp seed1 seed2, length := 0, remainder := 0, phase := .ready,
        responsePort := s.responsePort ++ [⟨0, 0x01, []⟩] } := by
  rw [initEffect, finished_eq]
  generalize expand kp seed1 seed2 = w
  rfl

/-- INIT needs no more than an engine without fault (R190, R192). -/
theorem exec_init_next (seed1 seed2 : Word) {s : State} (hf : s.fault = 0) :
    exec (.init seed1 seed2) s = .next (initEffect seed1 seed2 s) := by
  rw [exec_init, command_effect hf]

/-- Settles O22: `initEffect_eq`, with no test on the phase. -/
theorem initSeedsAReadyContext : Obligations.InitSeedsAReadyContext := by
  intro seed1 seed2 s hf
  rw [exec_init_next seed1 seed2 hf, initEffect_eq]
  exact ⟨rfl, expand_getElem_zero kp seed1 seed2, expand_getElem_one kp seed1 seed2⟩

/-! ### UPDATE -/

section

variable {len : Word} {payload : List Byte} {s : State}

/-- UPDATE of a Ready context takes effect when its payload is all there and LENGTH does not overflow (R90). -/
theorem exec_update_next (hf : s.fault = 0) (hready : s.phase = .ready) (hl : payload.length = len.toNat)
    (hlen : len = 0 ∨ s.length.toNat + len.toNat < 2 ^ 64) :
    exec (.update len payload) s = .next (updateEffect payload s) := by
  have hpayload : payloadOk len payload = true := beq_iff_eq.mpr hl
  rw [exec_update, hpayload, updateFault_eq_none.mpr ⟨hready, hlen⟩, command_effect hf]

/-- With bytes in the payload the effect is R195's, and the response. -/
theorem exec_update_absorbs (hf : s.fault = 0) (hready : s.phase = .ready) (hl : payload.length = len.toNat)
    (hpos : 0 < len.toNat) (hlt : s.length.toNat + len.toNat < 2 ^ 64) :
    exec (.update len payload) s = .next (finished .update [] (absorbInto payload s)) := by
  rw [exec_update_next hf hready hl (.inr hlt), updateEffect_of_pos s (hl ▸ hpos)]

end

/-- Settles O24: in READY the effect of no bytes is the response alone (`updateEffect_nil`); in UNINIT the phase test
fails first. -/
theorem updateOfNothingChangesNothing : Obligations.UpdateOfNothingChangesNothing := by
  intro s hf
  constructor
  · intro hready
    rw [exec_update_next hf hready rfl (.inl rfl), updateEffect_nil, finished_eq]
    rfl
  · intro huninit
    rw [exec_update, updateFault_of_uninit 0 huninit, command_blocked hf, raise_eq]
    rfl

/-- Settles O23: the fields of `absorbInto`, whose pure part is `foldBlocks` and `unmixed` of the held bytes followed by
the payload (`absorb_eq`). -/
theorem updateMixesEveryCompletedBlock : Obligations.UpdateMixesEveryCompletedBlock := by
  intro len payload s hf hready hl hpos hlt
  obtain ⟨hheld, hremainder⟩ := absorbInto_held payload s
  have hlength := absorbInto_length_toNat (hl.symm ▸ hlt)
  rw [hl] at hremainder hlength
  rw [absorb_eq] at hheld
  refine ⟨_, exec_update_absorbs hf hready hl hpos hlt, ?_, hheld, hremainder, hlength, hready, hf, rfl, rfl, rfl, rfl⟩
  rw [finished_words, absorbInto_words, absorb_eq]

/-! ### The incremental form of UPDATE (R198) -/

/-- A whole block at the front of a stream is mixed first. -/
theorem foldBlocks_block_append (c : KP) {b : List Byte} (hb : b.length = 96) (m : List Byte) (w : Words12) :
    foldBlocks c (b ++ m) w = foldBlocks c m (mix c (block12 b) w) := by
  have hcount : (b ++ m).length / 96 = m.length / 96 + 1 := by rw [List.length_append]; omega
  rw [foldBlocks_eq_mixBlocks, foldBlocks_eq_mixBlocks, hcount, mixBlocks, List.take_left' hb, List.drop_left' hb]

/-- A whole block at the front of a stream leaves nothing unmixed. -/
theorem unmixed_block_append {b : List Byte} (hb : b.length = 96) (m : List Byte) : unmixed (b ++ m) = unmixed m := by
  have hnone : unmixed b = [] := by rw [unmixed, hb]; exact List.drop_eq_nil_of_le hb.le
  rw [unmixed_append, hnone, List.nil_append]

theorem foldBlocks_of_lt (c : KP) {m : List Byte} (h : m.length < 96) (w : Words12) : foldBlocks c m w = w := by
  rw [foldBlocks_eq_mixBlocks, Nat.div_eq_of_lt h, mixBlocks]

theorem unmixed_of_lt {m : List Byte} (h : m.length < 96) : unmixed m = m := by
  rw [unmixed, Nat.div_eq_of_lt h, Nat.mul_zero, List.drop_zero]

/-- The loop of R198, given enough rounds, mixes every complete block and holds the rest. -/
theorem drainBlocks_eq (c : KP) {n : Nat} {m : List Byte} (hn : m.length / 96 ≤ n) (w : Words12) :
    drainBlocks c n m w = (foldBlocks c m w, unmixed m) := by
  induction n generalizing m w with
  | zero =>
    have hlt : m.length < 96 := by omega
    rw [drainBlocks, foldBlocks_of_lt c hlt, unmixed_of_lt hlt]
  | succ n ih =>
    rw [drainBlocks]
    split
    · next hge =>
      have hblock : (m.take 96).length = 96 := List.length_take_of_le hge
      have hrounds : (m.drop 96).length / 96 ≤ n := by rw [List.length_drop]; omega
      rw [ih hrounds, ← foldBlocks_block_append c hblock, ← unmixed_block_append hblock, List.take_append_drop]
    · next hlt =>
      rw [foldBlocks_of_lt c (Nat.lt_of_not_le hlt), unmixed_of_lt (Nat.lt_of_not_le hlt)]

/-- R198 gives what R195 gives, from less than one block of held bytes: the topped-up block is the first of the stream. -/
theorem absorbIncrementally_eq_absorb (c : KP) (w : Words12) {held : List Byte} (hheld : held.length < 96)
    (bytes : List Byte) : absorbIncrementally c w held bytes = absorb c w held bytes := by
  rw [absorb_eq, absorbIncrementally]
  split
  · next htop =>
    have hblock : (held ++ bytes.take (96 - held.length)).length = 96 := by
      rw [List.length_append, List.length_take]
      omega
    have hrounds : (bytes.drop (96 - held.length)).length / 96 ≤ bytes.length := by rw [List.length_drop]; omega
    have hstream : held ++ bytes.take (96 - held.length) ++ bytes.drop (96 - held.length) = held ++ bytes := by
      rw [List.append_assoc, List.take_append_drop]
    rw [drainBlocks_eq c hrounds, ← foldBlocks_block_append c hblock, ← unmixed_block_append hblock, hstream]
  · next htop =>
    split
    · next hempty =>
      obtain rfl := List.length_eq_zero_iff.mp hempty
      rw [drainBlocks_eq c (Nat.div_le_self ..), List.nil_append]
    · next hsome =>
      have hshort : (held ++ bytes).length < 96 := by rw [List.length_append]; omega
      rw [foldBlocks_of_lt c hshort, unmixed_of_lt hshort]

/-- Settles O25: the incremental form is R195's rule (`absorbIncrementally_eq_absorb`), and UPDATE's fields are those of
the rule. -/
theorem incrementalFormOfUpdateAgrees : Obligations.IncrementalFormOfUpdateAgrees := by
  intro len payload s hf hready hrem hl hpos hlt
  obtain ⟨hheld, hremainder⟩ := absorbInto_held payload s
  have hcount := absorb_held_length kp s.words s.held payload
  rw [held_length] at hcount
  have hlength := absorbInto_length_toNat (hl.symm ▸ hlt)
  rw [hl] at hlength
  rw [absorbIncrementally_eq_absorb kp s.words ((held_length s).trans_lt hrem)]
  exact ⟨_, exec_update_absorbs hf hready hl hpos hlt, absorbInto_words payload s, hheld, hremainder.trans hcount.symm,
    by omega, hlength⟩

/-! ### FINAL -/

/-- FINAL of a Ready context adds its response and does nothing else (R202, R204). -/
theorem exec_final_next {s : State} (hf : s.fault = 0) (hready : s.phase = .ready) :
    exec .final s =
      .next { s with responsePort :=
        s.responsePort ++ [⟨0, 0x03, [(finish kp s.words s.held).1, (finish kp s.words s.held).2]⟩] } := by
  rw [exec_final, phaseFault_eq_none.mpr hready, command_effect hf, finalEffect, finished_eq]
  rfl

/-- The tail block, in R203's words: the held bytes, zeros to byte 94, their count. -/
theorem tailBlock_held (s : State) :
    tailBlock s.held =
      s.held ++ List.replicate (95 - s.remainder.toNat) 0 ++ [BitVec.ofNat 8 s.remainder.toNat] := by
  rw [tailBlock, padTag, held_length, zeros, tagByte]

/-- Settles O26: the pair is that of END over the tail block (`tailBlock_held`). -/
theorem finalHashesTheTailAndChangesNothing : Obligations.FinalHashesTheTailAndChangesNothing := by
  intro s hf hready _
  refine ⟨_, _, ?_, exec_final_next hf hready⟩
  rw [← tailBlock_held, finish]

end Sys2Proof.Machine

/-! PROOFS. No instruction reads the responses sent before it, so that deleting a FINAL shows nowhere else (spec R205). -/

namespace Sys2Proof.Machine

/-- The state with earlier responses put before those it has sent. -/
def State.after (earlier : List Response) (s : State) : State := { s with responsePort := earlier ++ s.responsePort }

/-- The outcome with earlier responses put before those of its next state. -/
def outcomeAfter (earlier : List Response) :
    Host.Outcome State Fault Refusal → Host.Outcome State Fault Refusal
  | .next t => .next (t.after earlier)
  | .fault f => .fault f
  | .refused r => .refused r

section

variable (earlier : List Response) (s : State)

/-- A response goes behind the earlier ones too. -/
theorem State.respond_after (r : Response) : (s.after earlier).respond r = (s.respond r).after earlier := by
  simp only [State.respond, State.after, List.append_assoc]

theorem finished_after (o : Opcode) (results : List Word) :
    finished o results (s.after earlier) = (finished o results s).after earlier :=
  State.respond_after ..

theorem refuse_after (opc : Byte) : refuse opc (s.after earlier) = (refuse opc s).after earlier :=
  State.respond_after ..

theorem raise_after (c : BitVec 8) (opc : Byte) : raise c opc (s.after earlier) = (raise c opc s).after earlier :=
  State.respond_after _ (s.setFault c) _

theorem initEffect_after (seed1 seed2 : Word) :
    initEffect seed1 seed2 (s.after earlier) = (initEffect seed1 seed2 s).after earlier := by
  rw [initEffect, initEffect, ← finished_after]
  generalize expand kp seed1 seed2 = w
  rfl

theorem updateEffect_after (payload : List Byte) :
    updateEffect payload (s.after earlier) = (updateEffect payload s).after earlier := by
  rw [updateEffect, updateEffect, ← finished_after]
  split <;> rfl

theorem finalEffect_after : finalEffect (s.after earlier) = (finalEffect s).after earlier := by
  rw [finalEffect, finalEffect, ← finished_after]
  rfl

/-- A command does not read the earlier responses when its effect does not. -/
theorem command_after (o : Opcode) (b : Option (BitVec 8)) (complete : Bool) (effect : State) :
    command o b complete (effect.after earlier) (s.after earlier) =
      outcomeAfter earlier (command o b complete effect s) := by
  obtain ⟨hf, h⟩ | ⟨hf, c, rfl, h⟩ | ⟨hf, rfl, rfl, h⟩ | ⟨hf, rfl, rfl, h⟩ := command_cases o b complete effect s <;>
    rw [h, outcomeAfter]
  · rw [← refuse_after]
    exact if_pos hf
  · rw [← raise_after]
    exact command_blocked hf
  · exact command_effect hf
  · exact command_incomplete hf

/-- Unit operations send no response, and each command's effect only adds its own. -/
theorem exec_after (i : Instr) : exec i (s.after earlier) = outcomeAfter earlier (exec i s) := by
  cases i with
  | init seed1 seed2 => rw [exec_init, exec_init, initEffect_after, command_after]
  | update len payload =>
    rw [exec_update, exec_update, updateEffect_after]
    exact command_after ..
  | final =>
    rw [exec_final, exec_final, finalEffect_after]
    exact command_after ..
  | hash128 seed1 seed2 len message => rw [exec_hash128, exec_hash128, finished_after, command_after]
  | hash64 seed len message => rw [exec_hash64, exec_hash64, finished_after, command_after]
  | hash32 seed32 len message => rw [exec_hash32, exec_hash32, finished_after, command_after]
  | short message seed1 seed2 =>
    show execShort message seed1 seed2 (s.after earlier) = outcomeAfter earlier (execShort message seed1 seed2 s)
    unfold execShort
    split <;> rfl
  | mix | endPartial | endHash | shortMix | shortEnd | expand => rfl

theorem execAll_after (is : List Instr) : execAll is (s.after earlier) = outcomeAfter earlier (execAll is s) := by
  induction is generalizing s with
  | nil => rfl
  | cons i is ih =>
    rw [execAll, execAll, exec_after]
    cases exec i s with
    | next t => exact ih t
    | fault f => rfl
    | refused r => rfl

end

theorem outcomeAfter_eq_next {earlier : List Response} {out : Host.Outcome State Fault Refusal} {u : State}
    (h : outcomeAfter earlier out = .next u) : ∃ t, out = .next t ∧ u = t.after earlier := by
  cases out with
  | next t => exact ⟨t, rfl, (Host.Outcome.next.inj h).symm⟩
  | fault f => exact nomatch h
  | refused r => exact nomatch h

/-- The state with nothing sent, which the same state is after its own responses. -/
def State.unsent (s : State) : State := { s with responsePort := [] }

theorem State.unsent_after (s : State) (sent : List Response) :
    s.unsent.after sent = { s with responsePort := sent } := by
  rw [State.after, State.unsent, List.append_nil]

/-- Settles O27: both runs are the run from a state that has sent nothing, after the responses of `s` and after those with
FINAL's (`execAll_after`). -/
theorem deletingFinalChangesNothingLater : Obligations.DeletingFinalChangesNothingLater := by
  intro is s t u hf hready ht hu
  obtain ⟨r, rfl⟩ : ∃ r, t = { s with responsePort := s.responsePort ++ [r] } :=
    ⟨_, Host.Outcome.next.inj (ht.symm.trans (exec_final_next hf hready))⟩
  have hs : s = s.unsent.after s.responsePort := (State.unsent_after s _).symm
  rw [hs, execAll_after] at hu
  obtain ⟨w, hw, rfl⟩ := outcomeAfter_eq_next hu
  refine ⟨w.after (s.responsePort ++ [r]), w.responsePort, ?_, rfl, rfl, rfl⟩
  rw [← State.unsent_after, execAll_after, hw, outcomeAfter]

end Sys2Proof.Machine

/-! PROOFS. The hash of a stream does not depend on its chunks, nor on the command that takes it (spec R210, R211). -/

namespace Sys2Proof.Machine

/-- Two contexts of one stream have the same registers, and hold the same bytes. -/
theorem HoldsStream.context_eq {w : Words12} {m : List Byte} {s t : State} (hs : HoldsStream w m s)
    (ht : HoldsStream w m t) :
    t.words = s.words ∧ t.held = s.held ∧ t.remainder = s.remainder ∧ t.length = s.length :=
  ⟨ht.words.trans hs.words.symm, ht.held.trans hs.held.symm,
    BitVec.eq_of_toNat_eq (ht.remainder.trans hs.remainder.symm),
    BitVec.eq_of_toNat_eq (ht.length.trans hs.length.symm)⟩

/-- FINAL answers the pair of the stream that the context holds. -/
theorem HoldsStream.exec_final {w : Words12} {m : List Byte} {s : State} (h : HoldsStream w m s) :
    exec .final s =
      .next { s with responsePort := s.responsePort ++
        [⟨0, 0x03, [(finish kp (foldBlocks kp m w) (unmixed m)).1, (finish kp (foldBlocks kp m w) (unmixed m)).2]⟩] } := by
  rw [exec_final_next h.fault h.phase, h.words, h.held]

/-- Settles O29: both streams leave the context of the one concatenation (`execAll_streamOf`), which FINAL reads alone
(`HoldsStream.exec_final`). -/
theorem chunkingNeverChangesTheHash : Obligations.ChunkingNeverChangesTheHash := by
  intro seed1 seed2 chunks chunks' s s' hf hf' hsame hlt
  obtain ⟨t, ht, hstream, _⟩ := execAll_streamOf seed1 seed2 chunks hf hlt
  obtain ⟨t', ht', hstream', _⟩ := execAll_streamOf seed1 seed2 chunks' hf' (hsame ▸ hlt)
  rw [← hsame] at hstream'
  obtain ⟨hwords, hheld, hremainder, hlength⟩ := hstream.context_eq hstream'
  exact ⟨t, t', _, _, ht, ht', hwords, hheld, hremainder, hlength, hstream.exec_final, hstream'.exec_final⟩

/-- LONG is FINAL's pair for the whole message as a stream (R221). -/
theorem long_eq_finish (c : KP) (m : List Byte) (seed1 seed2 : Word) :
    long c m seed1 seed2 = finish c (foldBlocks c m (expand c seed1 seed2)) (unmixed m) := by
  rw [long, absorb_eq, List.nil_append]

theorem hashPair_of_long (c : KP) {m : List Byte} (h : 192 < m.length) (seed1 seed2 : Word) :
    hashPair c m seed1 seed2 = long c m seed1 seed2 :=
  if_neg (Nat.not_le.mpr h)

/-- HASH128 of a whole message adds its response and does nothing else (R220, R222). -/
theorem exec_hash128_next {len : Word} {m : List Byte} {s : State} (hf : s.fault = 0) (hl : m.length = len.toNat)
    (seed1 seed2 : Word) :
    exec (.hash128 seed1 seed2 len m) s =
      .next { s with responsePort := s.responsePort ++
        [⟨0, 0x10, [(hashPair kp m seed1 seed2).1, (hashPair kp m seed1 seed2).2]⟩] } := by
  have hpayload : payloadOk len m = true := beq_iff_eq.mpr hl
  rw [exec_hash128, hpayload, command_effect hf, finished_eq]
  rfl

theorem execAll_append_of_next {is js : List Instr} {s t : State} (h : execAll is s = .next t) :
    execAll (is ++ js) s = execAll js t := by
  induction is generalizing s with
  | nil =>
    obtain rfl := Host.Outcome.next.inj h
    rfl
  | cons i is ih =>
    cases hi : exec i s with
    | next u =>
      rw [execAll_cons_of_next hi] at h
      rw [List.cons_append, execAll_cons_of_next hi, ih h]
    | fault f =>
      rw [execAll, hi] at h
      exact nomatch h
    | refused r =>
      rw [execAll, hi] at h
      exact nomatch h

/-- Settles O30: from 193 bytes on the pair of HASH128 is LONG's, which is what FINAL answers for the context that any
chunking leaves (`long_eq_finish`, `HoldsStream.exec_final`). -/
theorem longOneShotEqualsEveryChunking : Obligations.LongOneShotEqualsEveryChunking := by
  intro seed1 seed2 len chunks s hf hlong hl
  obtain ⟨t, ht, hstream, _⟩ := execAll_streamOf seed1 seed2 chunks hf (hl ▸ len.isLt)
  have hfinal := hstream.exec_final
  rw [← long_eq_finish, ← hashPair_of_long kp hlong] at hfinal
  have hrun := (execAll_append_of_next (js := [.final]) ht).trans (execAll_cons_of_next hfinal)
  exact ⟨_, _, _, exec_hash128_next hf hl seed1 seed2, hrun, List.getLast?_concat⟩

end Sys2Proof.Machine

/-! PROOFS. The one-shot entry points HASH128, HASH64 and HASH32 (spec R220 to R226). -/

namespace Sys2Proof.Machine

theorem hashPair_of_short (c : KP) {m : List Byte} (h : m.length ≤ 192) (seed1 seed2 : Word) :
    hashPair c m seed1 seed2 = short c m seed1 seed2 :=
  if_pos h

/-- The long path's pair written out: END over the padded rest, tagged with its length, after the complete blocks
(R202, R203, R221). -/
theorem long_eq_endHash (c : KP) (m : List Byte) (seed1 seed2 : Word) :
    long c m seed1 seed2 = endHash c (block12 (padTag (unmixed m) (tagByte (m.length % 96))))
      (foldBlocks c m (expand c seed1 seed2)) := by
  rw [long_eq_finish, finish, tailBlock, unmixed_length]

/-- Settles O31: the length chooses the path of `hashPair`; the long one is written out by `long_eq_endHash`. -/
theorem hashPairDispatchesAtOneHundredNinetyTwo : Obligations.HashPairDispatchesAtOneHundredNinetyTwo := by
  intro seed1 seed2 len m s hf hl
  refine ⟨hashPair kp m seed1 seed2, fun hshort => ?_, fun hlong => ?_, exec_hash128_next hf hl seed1 seed2⟩
  · exact hashPair_of_short kp (hl.trans_le hshort) seed1 seed2
  · rw [← hl] at hlong ⊢
    rw [hashPair_of_long kp hlong, long_eq_endHash]

section

variable {len : Word} {m : List Byte} {s : State}

/-- A one-shot command whose payload is all there adds its response and does nothing else (R222). -/
theorem command_finished (o : Opcode) (results : List Word) (hf : s.fault = 0) (hl : m.length = len.toNat) :
    command o none (payloadOk len m) (finished o results s) s =
      .next { s with responsePort := s.responsePort ++ [⟨0, opcodeByte o, results⟩] } := by
  have hpayload : payloadOk len m = true := beq_iff_eq.mpr hl
  rw [hpayload, command_effect hf, finished_eq]

/-- HASH64 of a whole message adds its response, the first word of the pair of equal seeds (R224). -/
theorem exec_hash64_next (hf : s.fault = 0) (hl : m.length = len.toNat) (seed : Word) :
    exec (.hash64 seed len m) s =
      .next { s with responsePort := s.responsePort ++ [⟨0, 0x11, [(hashPair kp m seed seed).1]⟩] } := by
  rw [exec_hash64, command_finished .hash64 _ hf hl, opcodeByte]

/-- HASH32 of a whole message adds its response, the low half of the first word of the pair of the zero-extended
seed (R226). -/
theorem exec_hash32_next (hf : s.fault = 0) (hl : m.length = len.toNat) (seed32 : BitVec 32) :
    exec (.hash32 seed32 len m) s =
      .next { s with responsePort := s.responsePort ++
        [⟨0, 0x12, [zext64 (low32 (hashPair kp m (zext64 seed32) (zext64 seed32)).1)]⟩] } := by
  rw [exec_hash32, command_finished .hash32 _ hf hl, opcodeByte]

end

/-- Settles O32: both commands answer from the one `hashPair` of the message. -/
theorem hashSixtyFourIsTheFirstWord : Obligations.HashSixtyFourIsTheFirstWord := by
  intro seed len m s hf hl
  exact ⟨_, _, exec_hash128_next hf hl seed seed, exec_hash64_next hf hl seed⟩

/-- Keeping the low half of a word is reduction modulo 2^32 (R226). -/
theorem zext64_low32_toNat (v : Word) : (zext64 (low32 v)).toNat = v.toNat % 2 ^ 32 := by
  have hlt : v.toNat % 2 ^ 32 < 2 ^ 64 := (Nat.mod_lt _ (by decide)).trans (by decide)
  rw [zext64, low32, BitVec.toNat_setWidth, BitVec.toNat_setWidth, Nat.mod_eq_of_lt hlt]

/-- Settles O33: both commands answer from the one `hashPair` of the zero-extended seed, HASH32 with its first word's
low half (`zext64_low32_toNat`). -/
theorem hashThirtyTwoIsTheLowHalf : Obligations.HashThirtyTwoIsTheLowHalf := by
  intro seed32 len m s hf hl
  exact ⟨_, _, _, exec_hash128_next hf hl (zext64 seed32) (zext64 seed32), zext64_low32_toNat _,
    exec_hash32_next hf hl seed32⟩

end Sys2Proof.Machine

/-! PROOFS. What a fault leaves unchanged, and what a command answers when its state tests fail or while FAULT is set
(spec R243, R244, R246, R247). -/

namespace Sys2Proof.Machine

/-! ### A step that records a fault -/

/-- A command that takes effect does not write FAULT. -/
theorem CommandEffect.fault {i : Instr} {o : Opcode} {s t : State} (h : CommandEffect i o s t) : t.fault = s.fault := by
  cases h with
  | init seed1 seed2 hi ho ht => subst ht; exact initEffect_fault ..
  | update len payload hi ho hl ht => subst ht; exact updateEffect_fault ..
  | pure results ht => subst ht; rfl

/-- Only `raise` records a fault: of the things a step can have done (`step_cases`), the others keep FAULT or clear it
(R240, R246). -/
theorem step_recording_fault {s t : State} (hf : s.fault = 0) (h : step s = .next t) (ht : t.fault ≠ 0) :
    ∃ (c : BitVec 8) (opc : Byte) (r rest : List Byte) (later : List HostInput),
      s.commandPort = .sent (opc :: r) :: later ∧ LeftOver (opc :: r) rest ∧
      t = raise c opc (s.setPort (remaining rest later)) := by
  cases step_cases h with
  | unitCall c later r hc htaken => subst htaken; exact absurd hf ht
  | idle hc hp hidle => subst hidle; exact absurd hf ht
  | reset later hc hp hreset => subst hreset; exact absurd rfl ht
  | moved bytes later port hc hp hn hmoved => subst hmoved; exact absurd hf ht
  | refused opc r rest later hc hp hs hne hrefused => exact absurd hf hne
  | raised opc r c rest later hc hp hs hzero hr hraised => exact ⟨c, opc, r, rest, later, hp, hs, hraised⟩
  | ran o r i rest later hc hp hs hzero hi hw hb hd heffect => exact absurd (heffect.fault.trans hf) ht

/-- Settles O38: the step raised its fault on the state that had taken the packet (`step_recording_fault`), and `raise`
writes FAULT and the response port only. -/
theorem faultsArePrecise : Obligations.FaultsArePrecise := by
  intro s t hf h ht
  obtain ⟨c, opc, r, rest, later, hp, ⟨hsuffix, hlength⟩, rfl⟩ := step_recording_fault hf h ht
  exact ⟨⟨rfl, rfl, rfl, rfl, rfl⟩, ⟨rfl, rfl, rfl⟩,
    opc, opc :: r, rest, later, hp, rfl, rfl, rfl, hsuffix, hlength⟩

/-! ### The command that faults or is refused -/

section

variable {s : State}

/-- FINAL in UNINIT (R243). -/
theorem phaseFault_of_uninit (hphase : s.phase = .uninit) : phaseFault s = some 3 := if_pos hphase

/-- A command that the state tests block answers with their fault, whatever its payload (R90). -/
theorem exec_of_blocked {i : Instr} {o : Opcode} {c : BitVec 8} (hi : commandOf i = some o) (hf : s.fault = 0)
    (hb : blocked i s = some c) : exec i s = .next (raise c (opcodeByte o) s) := by
  obtain ⟨effect, hexec⟩ := exec_eq_command hi s
  rw [hexec, hb, command_blocked hf]

/-- While FAULT is set a command is refused before any other test (R90 (1), R247). -/
theorem command_refused {o : Opcode} {b : Option (BitVec 8)} {complete : Bool} {effect : State} (hf : s.fault ≠ 0) :
    command o b complete effect s = .next (refuse (opcodeByte o) s) := if_pos hf

end

/-- Settles O34: the phase test blocks both commands (`updateFault_of_uninit`, `phaseFault_of_uninit`). -/
theorem uninitialisedContextFaults : Obligations.UninitialisedContextFaults := by
  intro len payload s hf hphase
  have hupdate : blocked (.update len payload) s = some 3 := updateFault_of_uninit len hphase
  have hfinal : blocked .final s = some 3 := phaseFault_of_uninit hphase
  exact ⟨exec_of_blocked (o := .update) rfl hf hupdate, exec_of_blocked (o := .final) rfl hf hfinal⟩

/-- Settles O35: past the phase test, the overflow test blocks UPDATE (`updateFault_of_overflow`). -/
theorem lengthOverflowFaults : Obligations.LengthOverflowFaults := by
  intro len payload s hf hphase hpos hover
  have hupdate : blocked (.update len payload) s = some 4 := updateFault_of_overflow hphase hpos hover
  exact exec_of_blocked (o := .update) rfl hf hupdate

/-- Settles O36: every command is one `command` (`exec_eq_command`), whose first test is FAULT. -/
theorem everyCommandIsRefusedAfterAFault : Obligations.EveryCommandIsRefusedAfterAFault := by
  intro i o s hf hi
  obtain ⟨effect, hexec⟩ := exec_eq_command hi s
  rw [hexec, command_refused hf, refuse_eq]

end Sys2Proof.Machine

/-! PROOFS. A reset clears FAULT and makes the context UNINIT, alone or behind part of a header (spec R270, R272). -/

namespace Sys2Proof.Machine

section

variable {s : State} {later : List HostInput}

theorem step_of_become {t : State} (h : nextAction s = .become t) : step s = .next t := by
  rw [step, h]

/-- Less than a header is no packet yet: with FAULT set too, the engine waits for the rest (R71). -/
theorem takePacket_partHeader {front : List Byte} (hpos : 0 < front.length) (hlt : front.length < 8) :
    takePacket front later s = await front later s := by
  have hd : decodePacket front = .noHeader := if_pos hlt
  simp only [takePacket, hd, if_neg hpos.ne']

/-- A reset is taken at the front of the port, and behind part of a header, which it abandons (R270, R272). -/
theorem step_reset (hc : s.unitCalls = [])
    (hp : s.commandPort = .reset :: later ∨
      ∃ front : List Byte, 0 < front.length ∧ front.length < 8 ∧ s.commandPort = .sent front :: .reset :: later) :
    step s = .next (applyReset (s.setPort later)) := by
  obtain hp | ⟨front, hpos, hlt, hp⟩ := hp
  · exact step_of_become (nextAction_reset hc hp)
  · have hwait : nextAction s = await front (.reset :: later) s :=
      (nextAction_sent hc hp).trans (takePacket_partHeader hpos hlt)
    exact step_of_become (hwait.trans (by rw [await]))

end

/-- Settles O41: the step is `applyReset` on the port past the reset (`step_reset`), which writes PHASE, FAULT and the
context registers, and keeps the responses and the unit ports. -/
theorem resetClearsFaultAndPhase : Obligations.ResetClearsFaultAndPhase := by
  intro later s hc hp
  exact ⟨applyReset (s.setPort later), step_reset hc hp, applyReset_phase _, applyReset_fault _, rfl, rfl, hc, rfl⟩

end Sys2Proof.Machine
